-- ==== Sys2Proof/Config.lean ====
section
/-! DEFINITION. The parameters of a core (spec/00_scope.md rule R7): fixed for one core, changed by no step.
They are an argument of the model: a state carries the parameters of its core (`State.cfg`), so that a statement about
every state is a statement about every choice of them. -/

namespace Sys2Proof

/-- `OVERFLOW_MODE` (R7, R9, R143): what a sum or a product outside the signed 64-bit range does. -/
inductive OverflowMode where
  /-- the result is reduced modulo 2^64 (this spec's machine, 92_eei_decisions.md D3) -/
  | wrap
  /-- `ArithmeticOverflow` is raised (the spec's model option, R207) -/
  | fault
deriving DecidableEq, Repr

/-- The three parameters of rule R7 that take more than one value. -/
structure Config where
  /-- `OVERFLOW_MODE` -/
  overflowMode : OverflowMode
  /-- `STRICT_MODE_DIGITS`: a nonzero digit above the last mode digit is a decode fault (R94, D9) -/
  strictModeDigits : Bool
  /-- `MEM_CAPACITY` in words: a write at or above it raises `CapacityExceeded` (R56); 2^63 is "unbounded" -/
  memCapacity : Nat
deriving DecidableEq, Repr

/-- This spec's machine: the values of rule R7's table. -/
def Config.standard : Config :=
  { overflowMode := .wrap, strictModeDigits := true, memCapacity := 2 ^ 63 }

end Sys2Proof
end

