-- ==== Sys2Proof/Word.lean ====
section
/-! DEFINITION. The word: a signed 64-bit two's-complement integer (spec/00_scope.md rules R7, R8), and `wrap64` (R9). -/

namespace Sys2Proof

/-- One element of `i64`; the integer it denotes is `toInt` (R8, R142). -/
abbrev Word := BitVec 64

/-- `wrap64(z)`: the one word congruent to `z` modulo 2^64 (R9). -/
abbrev wrap64 (z : Int) : Word := BitVec.ofInt 64 z

/-- `z` is an element of `i64` (R8). -/
abbrev InI64 (z : Int) : Prop := -2 ^ 63 ≤ z ∧ z < 2 ^ 63

end Sys2Proof
end

