-- ==== Sys2Proof/Syntax.lean ====
section
/-! DEFINITION. The ten instructions with their addressing modes: what `Decode(v)` returns
(spec/30_encoding.md rules R81, R85, R91, R98). Parameters are no part of the term: they are memory words that the
operand resolver reads at `ip + 1 + k` in every step (R80, R98; 40_sequencer_and_operands.md R115). -/

namespace Sys2Proof

/-- The addressing modes of a read operand (R85). -/
inductive Mode where
  | position
  | immediate
  | relative
deriving DecidableEq, Repr

/-- The addressing modes of a write operand: Immediate is no write mode (R85, R121). -/
inductive WMode where
  | position
  | relative
deriving DecidableEq, Repr

/-- The role of an operand (R81). -/
inductive Role where
  | read
  | write
deriving DecidableEq, Repr

/-- One constructor per row of spec/opcode_table.json; the arguments are the modes of operands 0, 1, 2. -/
inductive Instr where
  /-- opcode 1, format F3 (R140) -/
  | add (a b : Mode) (dst : WMode)
  /-- opcode 2, format F3 (R141) -/
  | multiply (a b : Mode) (dst : WMode)
  /-- opcode 3, format F1W (R150) -/
  | input (dst : WMode)
  /-- opcode 4, format F1R (R152) -/
  | output (src : Mode)
  /-- opcode 5, format F2 (R160) -/
  | jumpIfTrue (cond target : Mode)
  /-- opcode 6, format F2 (R161) -/
  | jumpIfFalse (cond target : Mode)
  /-- opcode 7, format F3 (R170) -/
  | lessThan (a b : Mode) (dst : WMode)
  /-- opcode 8, format F3 (R171) -/
  | equals (a b : Mode) (dst : WMode)
  /-- opcode 9, format F1R (R180) -/
  | adjustRelativeBase (delta : Mode)
  /-- opcode 99, format F0 (R190) -/
  | halt
deriving DecidableEq, Repr

end Sys2Proof
end

