-- ==== Sys2Proof/WellFormed.lean ====
section
/-! DEFINITION. Which words are legal instruction words (spec/30_encoding.md rule R93), one named check for each illegal
class of R94. The modes of `Instr` are typed by role, so every `Instr` is well-formed; what can be ill-formed is the word
it comes from. `Decode` (Decode.lean) is written from R98 and does not use these checks. -/

namespace Sys2Proof

/-- The operand roles of an opcode, operand 0 first (R81); none for a number that is no opcode (R91). -/
def opcodeRoles (op : Nat) : Option (List Role) :=
  if op = 1 ∨ op = 2 ∨ op = 7 ∨ op = 8 then some [.read, .read, .write]
  else if op = 5 ∨ op = 6 then some [.read, .read]
  else if op = 3 then some [.write]
  else if op = 4 ∨ op = 9 then some [.read]
  else if op = 99 then some []
  else none

/-- The roles of the operands of an instruction word, the empty list if its opcode is not in the set. -/
def wordRoles (v : Nat) : List Role := (opcodeRoles (v % 100)).getD []

/-- The decimal digit of `v` that holds the mode of operand `k` (R84). -/
def modeDigit (v k : Nat) : Nat := v / 10 ^ (k + 2) % 10

/-- The word is not negative (R83). -/
def wordNonNegative (v : Word) : Bool := decide (0 ≤ v.toInt)

/-- The opcode is one of the ten (R91). -/
def wordOpcodeInSet (v : Word) : Bool := (opcodeRoles (v.toNat % 100)).isSome

/-- Every operand's mode digit is 0, 1 or 2 (R85, R93). -/
def wordModesDefined (v : Word) : Bool :=
  (List.range (wordRoles v.toNat).length).all fun k => decide (modeDigit v.toNat k ≤ 2)

/-- No write operand is in Immediate mode (R93, R121). -/
def wordNoImmediateWrite (v : Word) : Bool :=
  (wordRoles v.toNat).zipIdx.all fun rk => decide (¬ (rk.1 = .write ∧ modeDigit v.toNat rk.2 = 1))

/-- No nonzero digit stands above the last mode digit (R93, `STRICT_MODE_DIGITS = true`). -/
def wordNoSurplusDigit (v : Word) : Bool :=
  decide (v.toNat / 100 < 10 ^ (wordRoles v.toNat).length)

/-- A legal instruction word: all the conditions of R93 hold. -/
def wordLegal (v : Word) : Bool :=
  wordNonNegative v && wordOpcodeInSet v && wordModesDefined v && wordNoImmediateWrite v && wordNoSurplusDigit v

end Sys2Proof
end

