-- ==== Sys2Proof/Decode.lean ====
section
/-! DEFINITION. The decoder (spec/30_encoding.md rules R82 to R98), total on words and rejecting by name, and after it the
encoder (R87 to R90). -/

namespace Sys2Proof

/-- The decoder's one fault, with the instruction word as info (R98, 60_exceptions.md R203). -/
inductive DecodeFault where
  | unknownOpcode (word : Word)
deriving DecidableEq, Repr

/-- `digit(m, k)` (R9, R84). -/
def digit (m k : Nat) : Nat := m / 10 ^ k % 10

/-- The mode of a read operand (R85); 3 to 9 are undefined (R94). -/
def readModeOf (d : Nat) : Option Mode :=
  match d with
  | 0 => some .position
  | 1 => some .immediate
  | 2 => some .relative
  | _ => none

/-- The mode of a write operand (R85): 1 is a decode fault too (R94, R121). -/
def writeModeOf (d : Nat) : Option WMode :=
  match d with
  | 0 => some .position
  | 2 => some .relative
  | _ => none

/-- The surplus-digit check: `STRICT_MODE_DIGITS and m >= 10^n` is refused (R98). -/
def surplusOk (strict : Bool) (m n : Nat) : Bool := !strict || decide (m < 10 ^ n)

/-- The two read modes of formats F3 and F2, passed on to `mk` (R87, R88). -/
def decodeReads (m : Nat) (mk : Mode → Mode → Option Instr) : Option Instr :=
  match readModeOf (digit m 0), readModeOf (digit m 1) with
  | some a, some b => mk a b
  | _, _ => none

/-- Format F3 (R87). -/
def decodeF3 (strict : Bool) (m : Nat) (mk : Mode → Mode → WMode → Instr) : Option Instr :=
  if surplusOk strict m 3 then decodeReads m fun a b => (writeModeOf (digit m 2)).map (mk a b) else none

/-- Format F2 (R88). -/
def decodeF2 (strict : Bool) (m : Nat) (mk : Mode → Mode → Instr) : Option Instr :=
  if surplusOk strict m 2 then decodeReads m fun a b => some (mk a b) else none

/-- Format F1W (R89). -/
def decodeF1W (strict : Bool) (m : Nat) (mk : WMode → Instr) : Option Instr :=
  if surplusOk strict m 1 then (writeModeOf (digit m 0)).map mk else none

/-- Format F1R (R89). -/
def decodeF1R (strict : Bool) (m : Nat) (mk : Mode → Instr) : Option Instr :=
  if surplusOk strict m 1 then (readModeOf (digit m 0)).map mk else none

/-- Format F0 (R90). -/
def decodeF0 (strict : Bool) (m : Nat) (i : Instr) : Option Instr :=
  if surplusOk strict m 0 then some i else none

/-- The opcode map (R91) over the opcode field `op = v mod 100` and the mode field `m = v div 100` (R82, R84). -/
def decodeFields (strict : Bool) (op m : Nat) : Option Instr :=
  match op with
  | 1 => decodeF3 strict m .add
  | 2 => decodeF3 strict m .multiply
  | 3 => decodeF1W strict m .input
  | 4 => decodeF1R strict m .output
  | 5 => decodeF2 strict m .jumpIfTrue
  | 6 => decodeF2 strict m .jumpIfFalse
  | 7 => decodeF3 strict m .lessThan
  | 8 => decodeF3 strict m .equals
  | 9 => decodeF1R strict m .adjustRelativeBase
  | 99 => decodeF0 strict m .halt
  | _ => none

/-- `Decode(v)` (R98): reads no state; a negative word is illegal (R83, D4). -/
def decode (strict : Bool) (v : Word) : Except DecodeFault Instr :=
  if v.toInt < 0 then .error (.unknownOpcode v)
  else
    match decodeFields strict (v.toNat % 100) (v.toNat / 100) with
    | some i => .ok i
    | none => .error (.unknownOpcode v)

/-- What this model's decoder reads from an instruction whose first word holds the low bits of `w`, of `nbits` bits
(the host's fixed name; later words are parameters, which the decoder does not look at). -/
def decodeTableWord (nbits w : Nat) : Option Instr :=
  match decode true (BitVec.ofNat 64 (w % 2 ^ nbits)) with
  | .ok i => some i
  | .error _ => none

/-- The mode digit of a read operand (R85). -/
def readDigit : Mode → Nat
  | .position => 0
  | .immediate => 1
  | .relative => 2

/-- The mode digit of a write operand (R85). -/
def writeDigit : WMode → Nat
  | .position => 0
  | .relative => 2

/-- The instruction word as a number, from the field tables of R87 to R90. -/
def encodeNat : Instr → Nat
  | .add a b dst => 10000 * writeDigit dst + 1000 * readDigit b + 100 * readDigit a + 1
  | .multiply a b dst => 10000 * writeDigit dst + 1000 * readDigit b + 100 * readDigit a + 2
  | .input dst => 100 * writeDigit dst + 3
  | .output src => 100 * readDigit src + 4
  | .jumpIfTrue cond target => 1000 * readDigit target + 100 * readDigit cond + 5
  | .jumpIfFalse cond target => 1000 * readDigit target + 100 * readDigit cond + 6
  | .lessThan a b dst => 10000 * writeDigit dst + 1000 * readDigit b + 100 * readDigit a + 7
  | .equals a b dst => 10000 * writeDigit dst + 1000 * readDigit b + 100 * readDigit a + 8
  | .adjustRelativeBase delta => 100 * readDigit delta + 9
  | .halt => 99

/-- The instruction word of an instruction (R87 to R90). -/
def encode (i : Instr) : Word := BitVec.ofNat 64 (encodeNat i)

/-- The words of an instruction with its parameters, the instruction word first (R80). -/
def encodeWords (i : Instr) (params : List Word) : List Word := encode i :: params

/-- The number of operands (R81). -/
def operandCount : Instr → Nat
  | .add _ _ _ => 3
  | .multiply _ _ _ => 3
  | .input _ => 1
  | .output _ => 1
  | .jumpIfTrue _ _ => 2
  | .jumpIfFalse _ _ => 2
  | .lessThan _ _ _ => 3
  | .equals _ _ _ => 3
  | .adjustRelativeBase _ => 1
  | .halt => 0

/-- The length `L` in words, the instruction word included (R81; 90_conflicts.md C3). -/
def instrLength : Instr → Nat
  | .add _ _ _ => 4
  | .multiply _ _ _ => 4
  | .input _ => 2
  | .output _ => 2
  | .jumpIfTrue _ _ => 3
  | .jumpIfFalse _ _ => 3
  | .lessThan _ _ _ => 4
  | .equals _ _ _ => 4
  | .adjustRelativeBase _ => 2
  | .halt => 1

end Sys2Proof
end

