-- ==== Sys2Proof/Machine/State.lean ====
section
/-! DEFINITION. The state of one Intcode core: the tuple of spec/10_state.md rule R20, with the parameters of the core
(R7, R39) beside it, and the state after reset (70_reset_and_hazards.md R240). -/

namespace Sys2Proof.Machine

/-- The faults of 60_exceptions.md rule R201, each with its info. As a step's outcome `fault f` a value of this type is
the answer to a step requested of a core that is already Halted or Faulted (R208, R209): safe, the machine is over. As the
content of `Status.faulted` it is what a fault entry recorded (R210). -/
inductive Fault where
  /-- code 1: raised by the text parser, outside the core (R205); no step and no port raises it. Safe. -/
  | parseError
  /-- code 2: fetch, operand resolver, PATCH, PEEK: an address below 0 (R202). Safe: the spec's own fault. -/
  | negativeAddress (addr : Word)
  /-- code 3: the decoder: the instruction word is not legal (R203). Safe: the spec's own fault. -/
  | unknownOpcode (word : Word)
  /-- code 4: Input with an empty queue (R204). Safe: the spec's own fault. -/
  | readOutOfInput
  /-- code 5: a step requested of a Halted core (R208); never latched in `st`. Safe: the spec's own fault. -/
  | alreadyHalted
  /-- code 6: `add64` and `mul64` under `OVERFLOW_MODE = fault` only (R207). Safe: it errs toward unprovable. -/
  | arithmeticOverflow
  /-- code 7: `MemWrite` with a finite `MEM_CAPACITY` only (R206). Safe: it errs toward unprovable. -/
  | capacityExceeded (addr : Word)
deriving DecidableEq, Repr

/-- The reasons a step gives an instruction no meaning. No arm of `exec` uses it: every instruction is modelled. -/
inductive Refusal where
  /-- raised by an arm of `exec` whose instruction has no meaning yet (none). Safe: the machine stops. -/
  | notModelled (mnemonic : String)
deriving DecidableEq, Repr

/-- The status register `st` (R28). -/
inductive Status where
  | running
  | halted
  | faulted (f : Fault)
deriving DecidableEq, Repr

/-- The content of `mem`: address and word pairs. A cell is one integer, never bytes (20_memory.md R57). An address that is
not listed reads 0 (R35); the canonical form is `Memory.wf` (Ops.lean). -/
abbrev Memory := List (Nat × Word)

/-- The state of one core (R20) and its parameters. -/
structure State where
  /-- the memory cells (R20, R34, R35) -/
  mem : Memory
  /-- the memory-extent register: the number of backed cells (R31) -/
  extent : Nat
  /-- the instruction pointer (R24) -/
  ip : Word
  /-- the relative-base register (R27) -/
  rb : Word
  /-- the status register (R28) -/
  st : Status
  /-- the input queue, its head first (R37, 42_io.md R151) -/
  inq : List Word
  /-- the output buffer, oldest value first (R37, 42_io.md R153) -/
  outq : List Word
  /-- the parameters of this core: no state of the spec's machine, changed by no step (R7, R39) -/
  cfg : Config
deriving DecidableEq, Repr

/-- `Reset(P)` for the empty program (R240, R243): memory with nothing listed. A program is loaded from outside by
`State.load` (Ports.lean). -/
def State.reset : State :=
  { mem := [], extent := 0, ip := 0, rb := 0, st := .running, inq := [], outq := [], cfg := Config.standard }

end Sys2Proof.Machine
end

