-- ==== Sys2Proof/Machine/Ops.lean ====
section
/-! DEFINITION. The named operations: the cell store, the arithmetic primitives (spec/00_scope.md R9), the memory
controller (20_memory.md R52, R53, R56), the instruction-pointer sequencer (40_sequencer_and_operands.md R125, R126), the two
queues, fault entry (60_exceptions.md R210) and the fetch (R112). There is no return from a fault (R211): only
`State.load` leaves Faulted. -/

namespace Sys2Proof.Machine

/-- The canonical form of a store: addresses strictly rising, no entry equal to the 0 an unlisted address reads as. -/
abbrev Memory.wf (m : Memory) : Prop :=
  m.Pairwise (fun p q => p.1 < q.1) ∧ ∀ p ∈ m, p.2 ≠ 0

/-- The word at an address; 0 where none is listed (10_state.md R35). -/
def Memory.read : Memory → Nat → Word
  | [], _ => 0
  | (b, w) :: m, a => if a = b then w else Memory.read m a

/-- The list without its entries at `a`. -/
def Memory.erase (m : Memory) (a : Nat) : Memory := m.filter fun p => decide (p.1 ≠ a)

/-- The list with the entry `(a, v)` put before the first higher address. -/
def Memory.insert (a : Nat) (v : Word) : Memory → Memory
  | [] => [(a, v)]
  | (b, w) :: m => if a < b then (a, v) :: (b, w) :: m else (b, w) :: Memory.insert a v m

/-- The store with the word at `a` replaced (20_memory.md R53); writing 0 removes the entry. -/
def Memory.write (m : Memory) (a : Nat) (v : Word) : Memory :=
  if v = 0 then m.erase a else Memory.insert a v (m.erase a)

/-- The store that holds the given words from address `a` on and 0 elsewhere (70_reset_and_hazards.md R240). -/
def Memory.ofWords (a : Nat) : List Word → Memory
  | [] => []
  | w :: ws => if w = 0 then Memory.ofWords (a + 1) ws else (a, w) :: Memory.ofWords (a + 1) ws

/-- The result of the adder or the multiplier from the exact integer (R9, R143). -/
def narrow (c : Config) (z : Int) : Except Fault Word :=
  if InI64 z then .ok (wrap64 z)
  else
    match c.overflowMode with
    | .wrap => .ok (wrap64 z)
    | .fault => .error .arithmeticOverflow

/-- `add64(a, b)` (R9). -/
def add64 (c : Config) (a b : Word) : Except Fault Word := narrow c (a.toInt + b.toInt)

/-- `mul64(a, b)` (R9). -/
def mul64 (c : Config) (a b : Word) : Except Fault Word := narrow c (a.toInt * b.toInt)

/-- The word a read of address `a` gives: 0 at or above `MEM_CAPACITY`, whatever was loaded there (20_memory.md R56), and the
cell below it (R52). -/
def State.wordAt (s : State) (a : Nat) : Word := if s.cfg.memCapacity ≤ a then 0 else s.mem.read a

/-- `MemRead(addr, 1)` (20_memory.md R52, R56, with `mem` total; a read changes no state, R55). -/
def memRead (s : State) (addr : Word) : Except Fault Word :=
  if addr.toInt < 0 then .error (.negativeAddress addr) else .ok (s.wordAt addr.toNat)

/-- The cell at `a` written and the extent grown to hold it (R53, R54, 10_state.md R31). -/
def storeCell (s : State) (a : Nat) (v : Word) : State :=
  { s with mem := s.mem.write a v, extent := if s.extent ≤ a then a + 1 else s.extent }

/-- `MemWrite(addr, 1, v)` (20_memory.md R53, R56). -/
def memWrite (s : State) (addr v : Word) : Except Fault State :=
  if addr.toInt < 0 then .error (.negativeAddress addr)
  else if s.cfg.memCapacity ≤ addr.toNat then .error (.capacityExceeded addr)
  else .ok (storeCell s addr.toNat v)

/-- Fault entry: every prepared write is discarded and only `st` is written (60_exceptions.md R210, 00_scope.md R12). -/
def takeFault (f : Fault) (s : State) : State := { s with st := .faulted f }

/-- The end of a step: its prepared state, or fault entry from the state the step began in (R111, R210). -/
def commit (s : State) (r : Except Fault State) : Host.Outcome State Fault Refusal :=
  match r with
  | .ok t => .next t
  | .error f => .next (takeFault f s)

/-- The advance `ip <- add64(ip, L)` (R125). -/
def advance (s : State) (len : Nat) : Except Fault State :=
  match add64 s.cfg s.ip (BitVec.ofNat 64 len) with
  | .ok a => .ok { s with ip := a }
  | .error f => .error f

/-- A taken jump: `ip` is the target, with no check (R126, 43_jumps.md R163). -/
def jumpTo (s : State) (target : Word) : State := { s with ip := target }

/-- The Input instruction's pop of the head of `inq` (42_io.md R150, 60_exceptions.md R204). -/
def popInput (s : State) : Except Fault (Word × State) :=
  match s.inq with
  | [] => .error .readOutOfInput
  | x :: rest => .ok (x, { s with inq := rest })

/-- The Output instruction's append to `outq` (42_io.md R152). -/
def pushOutput (s : State) (v : Word) : State := { s with outq := s.outq ++ [v] }

/-- The fetch of the instruction word at `ip` (R112). -/
def fetch (s : State) : Except Fault Word := memRead s s.ip

/-- Fetch, then decode, before any parameter is read (R112, R113). -/
def fetchDecode (s : State) : Except Fault Instr :=
  match fetch s with
  | .error f => .error f
  | .ok v =>
    match decode s.cfg.strictModeDigits v with
    | .ok i => .ok i
    | .error (.unknownOpcode w) => .error (.unknownOpcode w)

/-- Words stored at consecutive addresses from `a` on, as a loader does; there is no address from 2^63 on (R7). -/
def placeWords (a : Nat) : List Word → State → State
  | [], s => s
  | w :: ws, s => placeWords (a + 1) ws (if a < 2 ^ 63 then storeCell s a w else s)

/-- The `n` words of 64 bits of a number, its lowest bits first. -/
def wordsOf : Nat → Nat → List Word
  | 0, _ => []
  | n + 1, w => BitVec.ofNat 64 w :: wordsOf n (w / 2 ^ 64)

end Sys2Proof.Machine
end

