-- ==== Sys2Proof/Machine/Operands.lean ====
section
/-! DEFINITION. The operand resolver (spec/40_sequencer_and_operands.md rules R114 to R122): every mode of a read and of a
write operand. Each operand's parameter is read first, then the operand is resolved, with the `rb` of the step's start. -/

namespace Sys2Proof.Machine

/-- `p_k = MemRead(add64(ip, 1 + k), 1)` (R115). -/
def readParam (s : State) (k : Nat) : Except Fault Word :=
  match add64 s.cfg s.ip (BitVec.ofNat 64 (1 + k)) with
  | .error f => .error f
  | .ok pos => memRead s pos

/-- The effective address of a Relative operand, `add64(rb, p)` (R118, R120). -/
def relativeAddress (s : State) (p : Word) : Except Fault Word := add64 s.cfg s.rb p

/-- `ReadOperand(mode, p)` (R122): Position R116, Immediate R117, Relative R118. -/
def readByMode (s : State) (p : Word) : Mode → Except Fault Word
  | .position => memRead s p
  | .immediate => .ok p
  | .relative =>
    match relativeAddress s p with
    | .error f => .error f
    | .ok a => memRead s a

/-- The address check of `WriteOperand`, made at resolution (R119, R122; D11). -/
def checkAddress (a : Word) : Except Fault Word :=
  if a.toInt < 0 then .error (.negativeAddress a) else .ok a

/-- `WriteOperand(mode, p)` (R122): Position R119, Relative R120; the cell is not read. -/
def addressByMode (s : State) (p : Word) : WMode → Except Fault Word
  | .position => checkAddress p
  | .relative =>
    match relativeAddress s p with
    | .error f => .error f
    | .ok a => checkAddress a

/-- `val_k` of a read operand: the parameter, then the operand (R110, R114). -/
def readOperand (s : State) (k : Nat) (m : Mode) : Except Fault Word :=
  match readParam s k with
  | .error f => .error f
  | .ok p => readByMode s p m

/-- `adr_k` of a write operand: the parameter, then the address (R110, R114). -/
def writeOperand (s : State) (k : Nat) (m : WMode) : Except Fault Word :=
  match readParam s k with
  | .error f => .error f
  | .ok p => addressByMode s p m

end Sys2Proof.Machine
end

