-- ==== Sys2Proof/Machine/Flags.lean ====
section
/-! DEFINITION. The core has no condition codes (spec/10_state.md rule R32). This file holds what stands in their place: the
words 1 and 0 a comparison stores (44_compare.md R170 to R172), the zero test of the jumps (43_jumps.md R160), the halted
flag and the fields of `st` (R29, 60_exceptions.md R201). -/

namespace Sys2Proof.Machine

/-- The result of a comparison as a word (R172). -/
def truthWord (b : Bool) : Word := if b then 1 else 0

/-- Signed less-than of the two integers (R170). -/
def isLess (a b : Word) : Bool := decide (a.toInt < b.toInt)

/-- Equality of the two words (R171). -/
def isEqual (a b : Word) : Bool := decide (a = b)

/-- The jumps' test: every nonzero word is true (R160). -/
def isNonZero (a : Word) : Bool := decide (a ≠ 0)

/-- The halted flag is the predicate `st = Halted` (R29). -/
def haltedFlag (s : State) : Bool := decide (s.st = .halted)

/-- The numeric code of a fault (60_exceptions.md R201, D15). -/
def faultCode : Fault → BitVec 3
  | .parseError => 1
  | .negativeAddress _ => 2
  | .unknownOpcode _ => 3
  | .readOutOfInput => 4
  | .alreadyHalted => 5
  | .arithmeticOverflow => 6
  | .capacityExceeded _ => 7

/-- The info word of a fault (R201, D16). -/
def faultInfo : Fault → Word
  | .parseError => 0
  | .negativeAddress a => a
  | .unknownOpcode v => v
  | .readOutOfInput => 0
  | .alreadyHalted => 0
  | .arithmeticOverflow => 0
  | .capacityExceeded a => a

/-- The field `st.mode` (R29). -/
def statusMode : Status → BitVec 2
  | .running => 0
  | .halted => 1
  | .faulted _ => 2

/-- The field `st.code` (R29): 0 unless Faulted. -/
def statusCode : Status → BitVec 3
  | .running => 0
  | .halted => 0
  | .faulted f => faultCode f

/-- The field `st.info` (R29): 0 unless Faulted. -/
def statusInfo : Status → Word
  | .running => 0
  | .halted => 0
  | .faulted f => faultInfo f

end Sys2Proof.Machine
end

