-- ==== Sys2Proof/Machine/Arithmetic.lean ====
section
/-! DEFINITION. Add and Multiply (spec/41_arithmetic.md rules R140, R141), over the shared execute stage of format F3. -/

namespace Sys2Proof.Machine

/-- Format F3: resolve two sources and the destination, compute, store at `adr_2`, advance by 4
(40_sequencer_and_operands.md R110, R124, R125; 20_memory.md R67). -/
def computeAndStore (f : Config → Word → Word → Except Fault Word) (a b : Mode) (dst : WMode) (s : State) :
    Host.Outcome State Fault Refusal :=
  commit s do
    let x ← readOperand s 0 a
    let y ← readOperand s 1 b
    let d ← writeOperand s 2 dst
    let r ← f s.cfg x y
    let t ← memWrite s d r
    advance t 4

/-- Add: `dst = a + b` (R140). -/
def execAdd (a b : Mode) (dst : WMode) (s : State) : Host.Outcome State Fault Refusal :=
  computeAndStore add64 a b dst s

/-- Multiply: `dst = a * b` (R141). -/
def execMultiply (a b : Mode) (dst : WMode) (s : State) : Host.Outcome State Fault Refusal :=
  computeAndStore mul64 a b dst s

end Sys2Proof.Machine
end

