-- ==== Sys2Proof/Machine/Compare.lean ====
section
/-! DEFINITION. LessThan and Equals (spec/44_compare.md rules R170, R171): the word 1 or 0 is stored. -/

namespace Sys2Proof.Machine

/-- A comparison as the execute stage of format F3: it cannot fault. -/
def compareWords (test : Word → Word → Bool) (_ : Config) (a b : Word) : Except Fault Word :=
  .ok (truthWord (test a b))

/-- LessThan: `dst = 1 if a < b else 0`, signed (R170). -/
def execLessThan (a b : Mode) (dst : WMode) (s : State) : Host.Outcome State Fault Refusal :=
  computeAndStore (compareWords isLess) a b dst s

/-- Equals: `dst = 1 if a == b else 0` (R171). -/
def execEquals (a b : Mode) (dst : WMode) (s : State) : Host.Outcome State Fault Refusal :=
  computeAndStore (compareWords isEqual) a b dst s

end Sys2Proof.Machine
end

