-- ==== Sys2Proof/Machine/Control.lean ====
section
/-! DEFINITION. AdjustRelativeBase (spec/45_relative_base.md rule R180) and Halt (46_halt.md rule R190). -/

namespace Sys2Proof.Machine

/-- AdjustRelativeBase: `relative_base += delta`, the delta read with the old `rb` (R180). -/
def execAdjustRelativeBase (delta : Mode) (s : State) : Host.Outcome State Fault Refusal :=
  commit s do
    let d ← readOperand s 0 delta
    let r ← add64 s.cfg s.rb d
    advance { s with rb := r } 2

/-- Halt: `st <- Halted`, `ip` unchanged (R190, R127). -/
def execHalt (s : State) : Host.Outcome State Fault Refusal :=
  commit s (.ok { s with st := .halted })

end Sys2Proof.Machine
end

