-- ==== Sys2Proof/Machine/InOut.lean ====
section
/-! DEFINITION. Input and Output (spec/42_io.md rules R150, R152). -/

namespace Sys2Proof.Machine

/-- Input: the destination is resolved, then the head of `inq` is taken and stored (R150); on a fault no value is
consumed (R210). -/
def execInput (dst : WMode) (s : State) : Host.Outcome State Fault Refusal :=
  commit s do
    let d ← writeOperand s 0 dst
    let xs ← popInput s
    let t ← memWrite xs.2 d xs.1
    advance t 2

/-- Output: `src` is appended to `outq` (R152). -/
def execOutput (src : Mode) (s : State) : Host.Outcome State Fault Refusal :=
  commit s do
    let x ← readOperand s 0 src
    advance (pushOutput s x) 2

end Sys2Proof.Machine
end

