-- ==== Sys2Proof/Machine/Jumps.lean ====
section
/-! DEFINITION. JumpIfTrue and JumpIfFalse (spec/43_jumps.md rules R160, R161). -/

namespace Sys2Proof.Machine

/-- Format F2: both operands are resolved whether or not the jump is taken; a taken jump sets `ip`, else it advances
by 3 (R160, R126). -/
def jumpWhen (test : Word → Bool) (cond target : Mode) (s : State) : Host.Outcome State Fault Refusal :=
  commit s do
    let c ← readOperand s 0 cond
    let t ← readOperand s 1 target
    if test c then .ok (jumpTo s t) else advance s 3

/-- JumpIfTrue: `if cond != 0, ip = target` (R160). -/
def execJumpIfTrue (cond target : Mode) (s : State) : Host.Outcome State Fault Refusal :=
  jumpWhen isNonZero cond target s

/-- JumpIfFalse: `if cond == 0, ip = target` (R161). -/
def execJumpIfFalse (cond target : Mode) (s : State) : Host.Outcome State Fault Refusal :=
  jumpWhen (fun c => !isNonZero c) cond target s

end Sys2Proof.Machine
end

