-- ==== Sys2Proof/Machine/Sequencer.lean ====
section
/-! DEFINITION. One step of the core (spec/40_sequencer_and_operands.md rule R110): the status checks, then fetch and decode,
then the instruction. -/

namespace Sys2Proof.Machine

/-- `Step()` (R110). A requested step of a Halted or Faulted core changes nothing and is answered with the fault's name
(60_exceptions.md R208, R209): the outcome `fault`, which carries no new state. A fault raised by a running step is
entered, a next state (R210). -/
def stepOnce (s : State) : Host.Outcome State Fault Refusal :=
  match s.st with
  | .halted => .fault .alreadyHalted
  | .faulted f => .fault f
  | .running =>
    match fetchDecode s with
    | .error f => .next (takeFault f s)
    | .ok i => exec i s

/-- The state with the words of a table row's instruction stored from `ip` on, the longest instruction's four words
(30_encoding.md R80); a negative `ip` names no cell and leaves the state as it is. -/
def placeAtFetch (s : State) (nbits w : Nat) : State :=
  if s.ip.toInt < 0 then s else placeWords s.ip.toNat (wordsOf 4 (w % 2 ^ nbits)) s

end Sys2Proof.Machine
end

