-- ==== Sys2Proof/Machine/Step.lean ====
section
/-! DEFINITION. The host's fixed names for the step and for placing an instruction where the step fetches it. -/

namespace Sys2Proof.Machine

/-- One step of the core: `Step()` of spec/40_sequencer_and_operands.md R110. -/
def step (s : State) : Host.Outcome State Fault Refusal := stepOnce s

/-- `s` with an instruction's words stored where `step` fetches next. It stands for the load of a program from outside
(70_reset_and_hazards.md R240, R246). -/
def State.withFetchWord (s : State) (nbits w : Nat) : State := placeAtFetch s nbits w

end Sys2Proof.Machine
end

