-- ==== Sys2Proof/Machine/Ports.lean ====
section
/-! DEFINITION. The host side of the core's ports (spec/10_state.md rule R36; 70_reset_and_hazards.md): LOAD, PATCH, PUSH_IN,
PEEK, the step request with its answer, and the run controls as loops of step requests. None of them acts during a step. -/

namespace Sys2Proof.Machine

/-- `Reset(P)` (R240): the state of a core with parameters `c` and program `P`. -/
def State.load (c : Config) (program : List Word) : State :=
  { mem := Memory.ofWords 0 program, extent := program.length, ip := 0, rb := 0, st := .running, inq := [], outq := [],
    cfg := c }

/-- `PUSH_IN(x)` (R245). -/
def pushIn (x : Word) (s : State) : State := { s with inq := s.inq ++ [x] }

/-- `PATCH(a, x)` (R246): `MemWrite` by the host; a fault is answered and not latched. -/
def patch (a x : Word) (s : State) : Except Fault State := memWrite s a x

/-- `PEEK(a)` (R252). -/
def peek (a : Word) (s : State) : Except Fault Word := memRead s a

/-- What a step answers to whoever requested it (40_sequencer_and_operands.md R128). -/
inductive Answer where
  /-- the step executed this instruction and the state moved on -/
  | done (i : Instr)
  /-- the step faulted, or the core had already ended -/
  | fault (f : Fault)
  /-- the step gave its instruction no meaning (never happens) -/
  | refused (r : Refusal)
deriving DecidableEq, Repr

/-- The step request of the `CTRL` port (R247): the next state and the answer (R110, R128). -/
def request (s : State) : State × Answer :=
  match step s with
  | .fault f => (s, .fault f)
  | .refused r => (s, .refused r)
  | .next t =>
    match t.st, fetchDecode s with
    | .faulted f, _ => (t, .fault f)
    | _, .ok i => (t, .done i)
    | _, .error f => (t, .fault f)

/-- The result of a run control that is given a number of steps: the machine itself has no step limit (R130). -/
inductive RunResult (α : Type) where
  | ok (a : α)
  | err (f : Fault)
  /-- the given number of steps was used up and the run goes on (or, never, a step was refused) -/
  | unfinished
deriving DecidableEq, Repr

/-- `Run` (R248) within `n` steps. -/
def run : Nat → State → State × RunResult (List Word)
  | 0, s => (s, .unfinished)
  | n + 1, s =>
    match request s with
    | (t, .fault f) => (t, .err f)
    | (t, .refused _) => (t, .unfinished)
    | (t, .done .halt) => (t, .ok t.outq)
    | (t, .done _) => run n t

/-- `RunToOut` (R249) within `n` steps. -/
def runToOut : Nat → State → State × RunResult (Option Word)
  | 0, s => (s, .unfinished)
  | n + 1, s =>
    match request s with
    | (t, .fault f) => (t, .err f)
    | (t, .refused _) => (t, .unfinished)
    | (t, .done (.output _)) => (t, .ok t.outq.getLast?)
    | (t, .done .halt) => (t, .ok none)
    | (t, .done _) => runToOut n t

/-- The patches of `RunWith`, in the order given, up to the first that faults (R250). -/
def applyPatches : List (Word × Word) → State → State × Option Fault
  | [], s => (s, none)
  | (a, x) :: rest, s =>
    match patch a x s with
    | .ok t => applyPatches rest t
    | .error f => (s, some f)

/-- `RunWith` (R250) within `n` steps: the patches, then the run. -/
def runWith (n : Nat) (patches : List (Word × Word)) (s : State) : State × RunResult Unit :=
  match applyPatches patches s with
  | (t, some f) => (t, .err f)
  | (t, none) =>
    match run n t with
    | (u, .ok _) => (u, .ok ())
    | (u, .err f) => (u, .err f)
    | (u, .unfinished) => (u, .unfinished)

/-- Repeated `RunToOut` calls within `n` steps each, at most `k` of them, until one does not return a value: the values
returned and the last call's result (70_reset_and_hazards.md R258). -/
def drainOutputs (n : Nat) : Nat → State → List Word × State × RunResult (Option Word)
  | 0, s => ([], s, .unfinished)
  | k + 1, s =>
    match runToOut n s with
    | (t, .ok (some v)) =>
      match drainOutputs n k t with
      | (vs, u, r) => (v :: vs, u, r)
    | (t, r) => ([], t, r)

/-- The host's moves between steps (R253). -/
inductive HostMove where
  | load (program : List Word)
  | pushIn (x : Word)
  | patch (a x : Word)
  | peek (a : Word)
  | step
deriving DecidableEq, Repr

/-- The state a host move leaves; its answer is `patch`, `peek` or `request`'s. A faulting PATCH changes nothing (R246). -/
def hostMove (s : State) : HostMove → State
  | .load program => State.load s.cfg program
  | .pushIn x => pushIn x s
  | .patch a x =>
    match patch a x s with
    | .ok t => t
    | .error _ => s
  | .peek _ => s
  | .step => (request s).1

end Sys2Proof.Machine
end

