-- ==== Sys2Proof/Safety.lean ====
section
/-! DEFINITION. The terms claims are stated in: the invariant of the machine, the end of a run (spec/70_reset_and_hazards.md
R251), when an operand resolves and to what, written in integers from the rules and without the model's resolver, and the
sequence of step requests and the patched state, written without the run controls. -/

namespace Sys2Proof

/-- The adder or the multiplier raises no `ArithmeticOverflow` on the exact result `z` (00_scope.md R9). -/
abbrev Config.Admits (c : Config) (z : Int) : Prop := c.overflowMode = .wrap ∨ InI64 z

end Sys2Proof

namespace Sys2Proof.Machine

/-- The faults a step or a port of a core with parameters `c` may raise (60_exceptions.md R201): not the parser's, and
the two option faults only under their options. -/
def Fault.Possible (c : Config) : Fault → Prop
  | .parseError => False
  | .negativeAddress a => a.toInt < 0
  | .unknownOpcode v => ∀ i, decode c.strictModeDigits v ≠ .ok i
  | .readOutOfInput => True
  | .alreadyHalted => False
  | .arithmeticOverflow => c.overflowMode = .fault
  | .capacityExceeded a => 0 ≤ a.toInt ∧ c.memCapacity ≤ a.toNat

/-- What is latched in `st` is a fault that this core can raise (10_state.md R29, 60_exceptions.md R201, R208). -/
def Status.Legal (c : Config) : Status → Prop
  | .running => True
  | .halted => True
  | .faulted f => f.Possible c

/-- The invariant of the machine: the store is in canonical form, the cells at and above `extent` read 0 (20_memory.md
R54), the extent is in range (10_state.md R20), and `st` is legal. -/
structure State.Inv (s : State) : Prop where
  memWf : s.mem.wf
  zeroBeyondExtent : ∀ a, s.extent ≤ a → s.mem.read a = 0
  extentInRange : s.extent ≤ 2 ^ 63
  statusLegal : s.st.Legal s.cfg

/-- A run is over exactly when `st` is Halted or Faulted (R251). -/
abbrev State.RunOver (s : State) : Prop := s.st = .halted ∨ ∃ f, s.st = .faulted f

/-- The position `ip + 1 + k` of parameter `k` is a word address (40_sequencer_and_operands.md R115). -/
abbrev State.ParamInRange (s : State) (k : Nat) : Prop := 0 ≤ s.ip.toInt + 1 + k ∧ s.ip.toInt + 1 + k < 2 ^ 63

/-- Parameter `k`: the word read at `ip + 1 + k` (30_encoding.md R80). -/
def State.paramAt (s : State) (k : Nat) : Word := s.wordAt (s.ip.toInt + 1 + k).toNat

/-- The exact sum of `rb` and parameter `k` (R118, R120). -/
def State.relativeSum (s : State) (k : Nat) : Int := s.rb.toInt + (s.paramAt k).toInt

/-- The effective address of operand `k` in Relative mode. -/
def State.relativeCell (s : State) (k : Nat) : Word := wrap64 (s.relativeSum k)

/-- Read operand `k` resolves without a fault (R115 to R118). -/
abbrev State.ReadReady (s : State) (k : Nat) : Mode → Prop
  | .position => s.ParamInRange k ∧ 0 ≤ (s.paramAt k).toInt
  | .immediate => s.ParamInRange k
  | .relative => s.ParamInRange k ∧ s.cfg.Admits (s.relativeSum k) ∧ 0 ≤ (s.relativeCell k).toInt

/-- The value of read operand `k` (R116 to R118). -/
def State.readValue (s : State) (k : Nat) : Mode → Word
  | .position => s.wordAt (s.paramAt k).toNat
  | .immediate => s.paramAt k
  | .relative => s.wordAt (s.relativeCell k).toNat

/-- Write operand `k` resolves without a fault (R115, R119, R120). -/
abbrev State.WriteReady (s : State) (k : Nat) : WMode → Prop
  | .position => s.ParamInRange k ∧ 0 ≤ (s.paramAt k).toInt
  | .relative => s.ParamInRange k ∧ s.cfg.Admits (s.relativeSum k) ∧ 0 ≤ (s.relativeCell k).toInt

/-- The address of write operand `k` (R119, R120). -/
def State.writeTarget (s : State) (k : Nat) : WMode → Nat
  | .position => (s.paramAt k).toNat
  | .relative => (s.relativeCell k).toNat

/-- The advance by `len` raises no `ArithmeticOverflow` (R125). -/
abbrev State.AdvanceReady (s : State) (len : Nat) : Prop := s.cfg.Admits (s.ip.toInt + len)

/-- The instruction pointer after the advance by `len` (R125). -/
def State.ipAfter (s : State) (len : Nat) : Word := wrap64 (s.ip.toInt + len)

/-- The resolver's faults of the operands of an instruction, in increasing `k`: the first that applies
(60_exceptions.md R212, stage 4). -/
def firstOperandFault (rs : List (Except Fault Word)) : Option Fault :=
  match rs with
  | [] => none
  | .error f :: _ => some f
  | .ok _ :: rest => firstOperandFault rest

/-- The resolutions of an instruction's operands, in increasing `k` (R114). -/
def resolutions (i : Instr) (s : State) : List (Except Fault Word) :=
  match i with
  | .add a b dst => [readOperand s 0 a, readOperand s 1 b, writeOperand s 2 dst]
  | .multiply a b dst => [readOperand s 0 a, readOperand s 1 b, writeOperand s 2 dst]
  | .input dst => [writeOperand s 0 dst]
  | .output src => [readOperand s 0 src]
  | .jumpIfTrue cond target => [readOperand s 0 cond, readOperand s 1 target]
  | .jumpIfFalse cond target => [readOperand s 0 cond, readOperand s 1 target]
  | .lessThan a b dst => [readOperand s 0 a, readOperand s 1 b, writeOperand s 2 dst]
  | .equals a b dst => [readOperand s 0 a, readOperand s 1 b, writeOperand s 2 dst]
  | .adjustRelativeBase delta => [readOperand s 0 delta]
  | .halt => []

/-- The write operand of an instruction: its number and its mode (30_encoding.md R81). -/
def writeOperandOf : Instr → Option (Nat × WMode)
  | .add _ _ dst => some (2, dst)
  | .multiply _ _ dst => some (2, dst)
  | .input dst => some (0, dst)
  | .output _ => none
  | .jumpIfTrue _ _ => none
  | .jumpIfFalse _ _ => none
  | .lessThan _ _ dst => some (2, dst)
  | .equals _ _ dst => some (2, dst)
  | .adjustRelativeBase _ => none
  | .halt => none

/-- A jump that is taken from `s`, with its target value (43_jumps.md R160, R161). -/
def TakenJump (i : Instr) (s : State) (target : Word) : Prop :=
  ∃ cond tgt c, readOperand s 0 cond = .ok c ∧ readOperand s 1 tgt = .ok target ∧
    ((i = .jumpIfTrue cond tgt ∧ c ≠ 0) ∨ (i = .jumpIfFalse cond tgt ∧ c = 0))

/-- The two states agree on everything but `extent`, the state no program can observe (10_state.md R38). -/
abbrev State.EqButExtent (s t : State) : Prop := { s with extent := 0 } = { t with extent := 0 }

/-- The store without its cells at or above address `n`. -/
def Memory.below (m : Memory) (n : Nat) : Memory := m.filter fun p => decide (p.1 < n)

/-- The state of this spec's machine with the contents that a core of finite `MEM_CAPACITY` can read (20_memory.md R56). -/
def State.asStandard (s : State) : State := { s with mem := s.mem.below s.cfg.memCapacity, cfg := Config.standard }

/-- Two outcomes that are next states related by `EqButExtent`, or the same stop. -/
def OutcomesEqButExtent (x y : Host.Outcome State Fault Refusal) : Prop :=
  match x, y with
  | .next s, .next t => s.EqButExtent t
  | .fault f, .fault g => f = g
  | .refused q, .refused r => q = r
  | _, _ => False

/-- The state after `k` step requests of the host (70_reset_and_hazards.md R247). -/
def afterRequests : Nat → State → State
  | 0, s => s
  | k + 1, s => afterRequests k (request s).1

/-- The answer to step request number `k`, counted from 0, of a host that issues step requests only. -/
def nthAnswer (k : Nat) (s : State) : Answer := (request (afterRequests k s)).2

/-- The answers at which the loop of `Run` returns (70_reset_and_hazards.md R248). -/
def endsRun : Answer → Bool
  | .done .halt => true
  | .done _ => false
  | .fault _ => true
  | .refused _ => false

/-- The answers at which the loop of `RunToOut` returns (70_reset_and_hazards.md R249). -/
def endsRunToOut : Answer → Bool
  | .done .halt => true
  | .done (.output _) => true
  | .done _ => false
  | .fault _ => true
  | .refused _ => false

/-- Step request number `k` is the first whose answer is one of `ends`. -/
abbrev FirstAnswer (ends : Answer → Bool) (k : Nat) (s : State) : Prop :=
  ends (nthAnswer k s) = true ∧ ∀ j < k, ends (nthAnswer j s) = false

/-- A patch address that PATCH accepts (70_reset_and_hazards.md R246, 20_memory.md R53, R56). -/
abbrev State.AcceptsPatch (s : State) (a : Word) : Prop := 0 ≤ a.toInt ∧ a.toNat < s.cfg.memCapacity

/-- The value of the last of the patches to an address (70_reset_and_hazards.md R250). -/
def lastPatch (patches : List (Word × Word)) (a : Word) : Option Word :=
  ((patches.filter fun p => decide (p.1 = a)).getLast?).map fun p => p.2

/-- `t` is `s` with all of the patches applied: each cell holds the last patch to it, or its old word; the extent covers
every patched cell; nothing else differs (70_reset_and_hazards.md R246, R250). -/
structure Patched (patches : List (Word × Word)) (s t : State) : Prop where
  cells : ∀ a : Word, 0 ≤ a.toInt → peek a t = .ok ((lastPatch patches a).getD (s.wordAt a.toNat))
  extent : t.extent = patches.foldl (fun e p => max e (p.1.toNat + 1)) s.extent
  rest : t = { s with mem := t.mem, extent := t.extent }

end Sys2Proof.Machine
end

