-- ==== Sys2Proof/Certificates/Slice0/Obligations.lean ====
section
/-! DEFINITION. What is stated about the model, from the numbered rules of spec/. The terms are those of Safety.lean.
A marked decision D<n> is the spec's own choice (92_eei_decisions.md); a statement that rests on one, or on a log entry of
notes/assumptions, says so. `exec` is the execute stage with the resolver; `step` puts the status checks, the fetch and
the decoder before it. -/

open Sys2Proof Sys2Proof.Machine

/-! ## Encoding -/

/-- The decoder and the encoder are inverse in both directions: a word decodes to an instruction exactly when it is that
instruction's encoding. The outcome of the illegal words rests on D4, D7, D8, D9. -/
def Obligations.DecodesToExactlyTheEncodedWord : Prop :=
  ∀ (i : Instr) (v : Word), decode true v = .ok i ↔ v = encode i

/-- The decoder of R98 accepts exactly the words that R93 calls legal, and rejects every other by name with the word as
info (D4, D7, D8, D9, D16). -/
def Obligations.DecodeAcceptsExactlyTheLegalWords : Prop :=
  ∀ v : Word, (wordLegal v = true → ∃ i, decode true v = .ok i) ∧
    (wordLegal v = false → decode true v = .error (.unknownOpcode v))

/-- There are exactly 99 legal instruction words, the smallest 1 and the largest 22208 (R93, R96; D4, D7, D8, D9). -/
def Obligations.NinetyNineLegalWords : Prop :=
  ∃ ws : List Word, ws.length = 99 ∧ ws.Nodup ∧ (∀ v, v ∈ ws ↔ wordLegal v = true) ∧
    (∀ v ∈ ws, 1 ≤ v.toNat ∧ v.toNat ≤ 22208) ∧ (1 : Word) ∈ ws ∧ (22208 : Word) ∈ ws

/-- With `STRICT_MODE_DIGITS = false` (the spec's option, D9) a word decodes by its low digits alone. -/
def Obligations.LenientDecodeIgnoresSurplusDigits : Prop :=
  ∀ (i : Instr) (v : Word),
    decode false v = .ok i ↔ 0 ≤ v.toInt ∧ v.toNat % 10 ^ (operandCount i + 2) = encodeNat i

/-- The legal words of 95_test_vectors.md V-D, and the first word of every row of the opcode table (numbers 5, 6, 7: D5). -/
def Obligations.SampleWordsDecode : Prop :=
  decode true 1 = .ok (.add .position .position .position) ∧
    decode true 1002 = .ok (.multiply .position .immediate .position) ∧
    decode true 21101 = .ok (.add .immediate .immediate .relative) ∧
    decode true 20207 = .ok (.lessThan .relative .position .relative) ∧
    decode true 1108 = .ok (.equals .immediate .immediate .position) ∧
    decode true 203 = .ok (.input .relative) ∧
    decode true 204 = .ok (.output .relative) ∧
    decode true 109 = .ok (.adjustRelativeBase .immediate) ∧
    decode true 1005 = .ok (.jumpIfTrue .position .immediate) ∧
    decode true 2106 = .ok (.jumpIfFalse .immediate .relative) ∧
    decode true 99 = .ok .halt

/-! ## The memory controller -/

/-- `MemRead` as R52 writes it, the `extent` line included, and with R56's 0 at or above `MEM_CAPACITY` (the spec's choice,
D17): the model's read leaves the `extent` line out, and in every state that meets the invariant the two agree. A read
changes no state. -/
def Obligations.MemReadReturnsStoredOrZero : Prop :=
  ∀ (s : State) (addr : Word), s.Inv →
    memRead s addr =
      (if addr.toInt < 0 then .error (.negativeAddress addr)
       else if s.extent ≤ addr.toNat then .ok 0
       else if s.cfg.memCapacity ≤ addr.toNat then .ok 0
       else .ok (s.mem.read addr.toNat)) ∧
    hostMove s (.peek addr) = s

/-- `MemWrite` (R53): the fault on a negative address, the fault of a finite capacity (the spec's choice, D17, log entry 13),
and otherwise the value at that address, every other address as before, the extent grown to hold it and nothing else
changed. -/
def Obligations.MemWriteStoresAndGrows : Prop :=
  ∀ (s : State) (addr v : Word),
    (addr.toInt < 0 → memWrite s addr v = .error (.negativeAddress addr)) ∧
    (0 ≤ addr.toInt → s.cfg.memCapacity ≤ addr.toNat → memWrite s addr v = .error (.capacityExceeded addr)) ∧
    (0 ≤ addr.toInt → addr.toNat < s.cfg.memCapacity →
      ∃ t, memWrite s addr v = .ok t ∧ memRead t addr = .ok v ∧
        (∀ b : Word, b ≠ addr → memRead t b = memRead s b) ∧
        t.extent = max s.extent (addr.toNat + 1) ∧ t.ip = s.ip ∧ t.rb = s.rb ∧ t.st = s.st ∧ t.inq = s.inq ∧
        t.outq = s.outq ∧ t.cfg = s.cfg)

/-- Two stores in canonical form are the same list exactly when every read of them agrees: the list holds nothing beyond
the total function `mem` of R35. The canonical form is the model's (log entry 2). -/
def Obligations.CanonicalStoresEqualIffReadsAgree : Prop :=
  ∀ m n : Memory, m.wf → n.wf → (m = n ↔ ∀ a, m.read a = n.read a)

/-- A store is seen by the fetch of the cell it wrote, with no delay (R65). -/
def Obligations.StoreIsSeenByTheNextFetch : Prop :=
  ∀ (s t : State) (addr v : Word), memWrite s addr v = .ok t →
    fetch (jumpTo t addr) = .ok v ∧
    (∀ i, decode s.cfg.strictModeDigits v = .ok i → fetchDecode (jumpTo t addr) = .ok i)

/-! ## Arithmetic and the operand resolver -/

/-- The adder and the multiplier: exact where the result is a word; else congruent to it modulo 2^64 in `wrap` mode, and
`ArithmeticOverflow` in `fault` mode (both the spec's choice, D3). -/
def Obligations.AdderAndMultiplierNarrowTheExactResult : Prop :=
  ∀ (c : Config) (a b : Word) (z : Int) (r : Except Fault Word),
    ((z = a.toInt + b.toInt ∧ r = add64 c a b) ∨ (z = a.toInt * b.toInt ∧ r = mul64 c a b)) →
      (InI64 z → ∃ w, r = .ok w ∧ w.toInt = z) ∧
      (¬ InI64 z → c.overflowMode = .wrap → ∃ w, r = .ok w ∧ (2 ^ 64 : Int) ∣ w.toInt - z) ∧
      (¬ InI64 z → c.overflowMode = .fault → r = .error .arithmeticOverflow)

/-- A read operand in Position mode (R116): the word at the address stored at its position, 0 at or beyond the extent. -/
def Obligations.PositionOperandReadsTheAddressedCell : Prop :=
  ∀ (s : State) (k : Nat), k < 3 → s.ParamInRange k →
    ((s.paramAt k).toInt < 0 → readOperand s k .position = .error (.negativeAddress (s.paramAt k))) ∧
    (0 ≤ (s.paramAt k).toInt → readOperand s k .position = .ok (s.wordAt (s.paramAt k).toNat)) ∧
    (s.Inv → 0 ≤ (s.paramAt k).toInt → s.extent ≤ (s.paramAt k).toNat → readOperand s k .position = .ok 0)

/-- A read operand in Immediate mode (R117): the parameter itself, whatever word it is. -/
def Obligations.ImmediateOperandIsTheParameter : Prop :=
  ∀ (s : State) (k : Nat), k < 3 → s.ParamInRange k → readOperand s k .immediate = .ok (s.paramAt k)

/-- A read operand in Relative mode (R118): the word at `add64(rb, p_k)`. That a sum outside `i64` wraps, or raises
`ArithmeticOverflow` in fault mode, is the spec's choice (R9, R122; D3, log entry 7). -/
def Obligations.RelativeOperandReadsFromTheBase : Prop :=
  ∀ (s : State) (k : Nat), k < 3 → s.ParamInRange k →
    (s.cfg.Admits (s.rb.toInt + (s.paramAt k).toInt) →
      ∀ ea, ea = wrap64 (s.rb.toInt + (s.paramAt k).toInt) →
        (ea.toInt < 0 → readOperand s k .relative = .error (.negativeAddress ea)) ∧
        (0 ≤ ea.toInt → readOperand s k .relative = .ok (s.wordAt ea.toNat))) ∧
    (¬ s.cfg.Admits (s.rb.toInt + (s.paramAt k).toInt) → readOperand s k .relative = .error .arithmeticOverflow)

/-- A write operand resolves to an address and reads no cell (R119, R120); a negative address is reported at resolution
(the spec's choice, D11). That a sum outside `i64` wraps, or raises `ArithmeticOverflow` in fault mode, is the spec's
choice too (R122; D3, log entry 7). -/
def Obligations.WriteOperandResolvesToAnAddress : Prop :=
  ∀ (s : State) (k : Nat), k < 3 → s.ParamInRange k →
    (∀ a, a = s.paramAt k →
      writeOperand s k .position = if a.toInt < 0 then .error (.negativeAddress a) else .ok a) ∧
    (s.cfg.Admits (s.rb.toInt + (s.paramAt k).toInt) →
      ∀ a, a = wrap64 (s.rb.toInt + (s.paramAt k).toInt) →
        writeOperand s k .relative = if a.toInt < 0 then .error (.negativeAddress a) else .ok a) ∧
    (¬ s.cfg.Admits (s.rb.toInt + (s.paramAt k).toInt) → writeOperand s k .relative = .error .arithmeticOverflow)

/-- A parameter position that is no word address faults whatever the mode and the role: `NegativeAddress` of the wrapped
position, or `ArithmeticOverflow` in `fault` mode (R115; D3). -/
def Obligations.ParameterPositionOutsideTheAddressesFaults : Prop :=
  ∀ (s : State) (k : Nat) (m : Mode) (w : WMode), k < 3 → ¬ s.ParamInRange k →
    ∀ f, f = (if s.cfg.overflowMode = .wrap ∨ InI64 (s.ip.toInt + 1 + k) then
        Fault.negativeAddress (wrap64 (s.ip.toInt + 1 + k)) else .arithmeticOverflow) →
      readOperand s k m = .error f ∧ writeOperand s k w = .error f

/-! ## The instructions: results and completion

The hypotheses of each are the conditions under which the rule's pseudocode raises nothing; in this spec's machine
(`Config.standard`) those on overflow and capacity hold of themselves. The operands are named as R140 to R180 name them. -/

/-- Add (R140): the sum is stored at the destination; `ip` advances by 4. Overflow wraps (D3). -/
def Obligations.AddStoresTheSum : Prop :=
  ∀ (a b : Mode) (dst : WMode) (s : State), s.ReadReady 0 a → s.ReadReady 1 b → s.WriteReady 2 dst →
    s.cfg.Admits ((s.readValue 0 a).toInt + (s.readValue 1 b).toInt) → s.writeTarget 2 dst < s.cfg.memCapacity →
    s.AdvanceReady 4 →
    exec (.add a b dst) s = .next { s with
      mem := s.mem.write (s.writeTarget 2 dst) (wrap64 ((s.readValue 0 a).toInt + (s.readValue 1 b).toInt))
      extent := max s.extent (s.writeTarget 2 dst + 1)
      ip := s.ipAfter 4 }

/-- Multiply (R141): the product is stored at the destination; `ip` advances by 4. Overflow wraps (D3). -/
def Obligations.MultiplyStoresTheProduct : Prop :=
  ∀ (a b : Mode) (dst : WMode) (s : State), s.ReadReady 0 a → s.ReadReady 1 b → s.WriteReady 2 dst →
    s.cfg.Admits ((s.readValue 0 a).toInt * (s.readValue 1 b).toInt) → s.writeTarget 2 dst < s.cfg.memCapacity →
    s.AdvanceReady 4 →
    exec (.multiply a b dst) s = .next { s with
      mem := s.mem.write (s.writeTarget 2 dst) (wrap64 ((s.readValue 0 a).toInt * (s.readValue 1 b).toInt))
      extent := max s.extent (s.writeTarget 2 dst + 1)
      ip := s.ipAfter 4 }

/-- LessThan (R170): 1 or 0 by the signed comparison of operand 0 with operand 1 (number and order: D5, D6). -/
def Obligations.LessThanStoresTheSignedComparison : Prop :=
  ∀ (a b : Mode) (dst : WMode) (s : State), s.ReadReady 0 a → s.ReadReady 1 b → s.WriteReady 2 dst →
    s.writeTarget 2 dst < s.cfg.memCapacity → s.AdvanceReady 4 →
    exec (.lessThan a b dst) s = .next { s with
      mem := s.mem.write (s.writeTarget 2 dst) (if (s.readValue 0 a).toInt < (s.readValue 1 b).toInt then 1 else 0)
      extent := max s.extent (s.writeTarget 2 dst + 1)
      ip := s.ipAfter 4 }

/-- Equals (R171): 1 or 0 by the equality of the two words. -/
def Obligations.EqualsStoresTheEquality : Prop :=
  ∀ (a b : Mode) (dst : WMode) (s : State), s.ReadReady 0 a → s.ReadReady 1 b → s.WriteReady 2 dst →
    s.writeTarget 2 dst < s.cfg.memCapacity → s.AdvanceReady 4 →
    exec (.equals a b dst) s = .next { s with
      mem := s.mem.write (s.writeTarget 2 dst) (if (s.readValue 0 a).toInt = (s.readValue 1 b).toInt then 1 else 0)
      extent := max s.extent (s.writeTarget 2 dst + 1)
      ip := s.ipAfter 4 }

/-- Input (R150): the head of `inq` is removed and stored at the destination; `ip` advances by 2. -/
def Obligations.InputStoresTheHeadOfTheQueue : Prop :=
  ∀ (dst : WMode) (s : State) (x : Word) (rest : List Word), s.WriteReady 0 dst → s.inq = x :: rest →
    s.writeTarget 0 dst < s.cfg.memCapacity → s.AdvanceReady 2 →
    exec (.input dst) s = .next { s with
      mem := s.mem.write (s.writeTarget 0 dst) x
      extent := max s.extent (s.writeTarget 0 dst + 1)
      inq := rest
      ip := s.ipAfter 2 }

/-- Output (R152): the value is appended to `outq`; `ip` advances by 2. -/
def Obligations.OutputAppendsTheValue : Prop :=
  ∀ (src : Mode) (s : State), s.ReadReady 0 src → s.AdvanceReady 2 →
    exec (.output src) s = .next { s with outq := s.outq ++ [s.readValue 0 src], ip := s.ipAfter 2 }

/-- JumpIfTrue (R160): `ip` is the target if the condition is not 0, else it advances by 3 (number and operand order: D5,
D6). -/
def Obligations.JumpIfTrueFollowsTheCondition : Prop :=
  ∀ (cond target : Mode) (s : State), s.ReadReady 0 cond → s.ReadReady 1 target →
    ((s.readValue 0 cond).toInt ≠ 0 →
      exec (.jumpIfTrue cond target) s = .next { s with ip := s.readValue 1 target }) ∧
    ((s.readValue 0 cond).toInt = 0 → s.AdvanceReady 3 →
      exec (.jumpIfTrue cond target) s = .next { s with ip := s.ipAfter 3 })

/-- JumpIfFalse (R161): `ip` is the target if the condition is 0, else it advances by 3 (number and operand order: D5,
D6). -/
def Obligations.JumpIfFalseFollowsTheCondition : Prop :=
  ∀ (cond target : Mode) (s : State), s.ReadReady 0 cond → s.ReadReady 1 target →
    ((s.readValue 0 cond).toInt = 0 →
      exec (.jumpIfFalse cond target) s = .next { s with ip := s.readValue 1 target }) ∧
    ((s.readValue 0 cond).toInt ≠ 0 → s.AdvanceReady 3 →
      exec (.jumpIfFalse cond target) s = .next { s with ip := s.ipAfter 3 })

/-- AdjustRelativeBase (R180): the delta, read with the old `rb`, is added to `rb`; `ip` advances by 2. Overflow wraps
(D3). -/
def Obligations.AdjustRelativeBaseAddsTheDelta : Prop :=
  ∀ (delta : Mode) (s : State), s.ReadReady 0 delta →
    s.cfg.Admits (s.rb.toInt + (s.readValue 0 delta).toInt) → s.AdvanceReady 2 →
    exec (.adjustRelativeBase delta) s = .next { s with
      rb := wrap64 (s.rb.toInt + (s.readValue 0 delta).toInt), ip := s.ipAfter 2 }

/-- Halt (R127): the status is Halted, and `ip` and everything else are as before. -/
def Obligations.HaltKeepsTheInstructionPointer : Prop :=
  ∀ s : State, exec .halt s = .next { s with st := .halted }

/-! ## Frames and the rules of the whole machine -/

/-- The frame of the storing instructions Add, Multiply, LessThan, Equals and Input: every cell but the one their write
operand resolves to reads as before; `rb`, `outq` and the parameters are unchanged, `inq` but for the value Input takes,
`extent` but for growth up to the stored cell, `st` but for a fault entry, which changes nothing else (D10). -/
def Obligations.StoringInstructionsChangeOnlyTheirCell : Prop :=
  ∀ (i : Instr) (k : Nat) (m : WMode) (s t : State), writeOperandOf i = some (k, m) → exec i s = .next t →
    (∀ d, writeOperand s k m = .ok d → ∀ a, a ≠ d.toNat → t.mem.read a = s.mem.read a) ∧
    (∀ d, writeOperand s k m = .ok d → t.extent = s.extent ∨ t.extent = max s.extent (d.toNat + 1)) ∧
    (∀ f, writeOperand s k m = .error f → t.mem = s.mem ∧ t.extent = s.extent) ∧
    t.rb = s.rb ∧ t.outq = s.outq ∧ t.cfg = s.cfg ∧
    (t.inq = s.inq ∨ i = .input m ∧ ∃ x, s.inq = x :: t.inq) ∧
    (t.st = s.st ∨ ∃ f, t = { s with st := .faulted f })

/-- The frame of the instructions that store nothing (Output, the jumps, AdjustRelativeBase, Halt): memory, `extent`, `inq`
and the parameters are unchanged; `outq` but for Output, `rb` but for AdjustRelativeBase, `ip` not for Halt; `st` but for
Halt and a fault entry (D10). -/
def Obligations.OtherInstructionsStoreNothing : Prop :=
  ∀ (i : Instr) (s t : State), writeOperandOf i = none → exec i s = .next t →
    t.mem = s.mem ∧ t.extent = s.extent ∧ t.inq = s.inq ∧ t.cfg = s.cfg ∧
    (t.outq = s.outq ∨ ∃ src, i = .output src) ∧
    (t.rb = s.rb ∨ ∃ delta, i = .adjustRelativeBase delta) ∧
    (i = .halt → t.ip = s.ip) ∧
    (t.st = s.st ∨ (i = .halt ∧ t.st = .halted) ∨ ∃ f, t = { s with st := .faulted f })

/-- How `ip` moves: not at all for Halt (R127), to the target for a taken jump (R126; the target is unchecked, the spec's
choice D12, log entry 11), and by the length of the decoded instruction otherwise (R125; an advance outside `i64` wraps,
D3, log entry 7). -/
def Obligations.StepAdvancesByTheLength : Prop :=
  ∀ (i : Instr) (s t : State), s.st = .running → exec i s = .next t → (∀ f, t.st ≠ .faulted f) →
    (i = .halt ∧ t.ip = s.ip) ∨ TakenJump i s t.ip ∨
      (i ≠ .halt ∧ (∀ target, ¬ TakenJump i s target) ∧ s.AdvanceReady (instrLength i) ∧
        t.ip = wrap64 (s.ip.toInt + instrLength i))

/-- When the memory at `ip` decodes to an instruction, a step of a Running core is `exec` of that instruction at that
state: nothing stands around it, every instruction advances `ip` itself (R110, R112, R113). -/
def Obligations.StepRunsTheDecodedInstruction : Prop :=
  ∀ (s : State) (i : Instr), s.st = .running → 0 ≤ s.ip.toInt →
    decode s.cfg.strictModeDigits (s.wordAt s.ip.toNat) = .ok i → step s = exec i s

/-- The order of the faults of a step (R212; the order inside resolution is the spec's choice, D11). -/
def Obligations.FirstFaultInStageOrderIsReported : Prop :=
  ∀ s : State, s.st = .running →
    (s.ip.toInt < 0 → step s = .next (takeFault (.negativeAddress s.ip) s)) ∧
    (0 ≤ s.ip.toInt → (∀ i, decode s.cfg.strictModeDigits (s.wordAt s.ip.toNat) ≠ .ok i) →
      step s = .next (takeFault (.unknownOpcode (s.wordAt s.ip.toNat)) s)) ∧
    (∀ i f, fetchDecode s = .ok i → firstOperandFault (resolutions i s) = some f → step s = .next (takeFault f s))

/-- `ReadOutOfInput` (R204): raised by Input, at its execute stage, when `inq` is empty, and by nothing else. That a faulting
Input changes `st` alone, and so consumes nothing, is the spec's choice D10, that a destination which does not resolve is
reported instead is D11 (log entry 10), and the info 0 is D16 (log entry 12). -/
def Obligations.ReadOutOfInputOnlyFromInputOnEmptyQueue : Prop :=
  (∀ (dst : WMode) (s : State), s.WriteReady 0 dst → s.inq = [] →
      exec (.input dst) s = .next (takeFault .readOutOfInput s)) ∧
  (∀ (dst : WMode) (s : State) (f : Fault), writeOperand s 0 dst = .error f →
      f ≠ .readOutOfInput ∧ exec (.input dst) s = .next (takeFault f s)) ∧
  (∀ s t : State, step s = .next t → t.st = .faulted .readOutOfInput →
      s.inq = [] ∧ ∃ dst, fetchDecode s = .ok (.input dst)) ∧
  faultInfo .readOutOfInput = 0

/-- The transitions of `st` and the answers (R28, R128, R208, R209, R214, R251; D1, D13, D14): a step of a Running core
always gives a next state, which is Running and answered `Done` of the instruction it executed, or Halted by Halt and
answered `Done(Halt)`, or a fault entry answered with the fault; a Halted or Faulted core answers and does not move. -/
def Obligations.StatusMovesOnlyAsTheTableSays : Prop :=
  ∀ s : State,
    (s.st = .running → ∃ t, step s = .next t ∧
      ((∃ i, fetchDecode s = .ok i ∧ i ≠ .halt ∧ t.st = .running ∧ request s = (t, .done i)) ∨
        (fetchDecode s = .ok .halt ∧ t = { s with st := .halted } ∧ request s = (t, .done .halt)) ∨
        ∃ f, t = { s with st := .faulted f } ∧ request s = (t, .fault f))) ∧
    (s.st = .halted → step s = .fault .alreadyHalted ∧ request s = (s, .fault .alreadyHalted)) ∧
    (∀ f, s.st = .faulted f → step s = .fault f ∧ request s = (s, .fault f))

/-- Faults are precise (R210; the spec's choice, D10): a step that ends Faulted has changed `st` and nothing else. -/
def Obligations.FaultingStepChangesOnlyTheStatus : Prop :=
  ∀ (s t : State) (f : Fault), step s = .next t → t.st = .faulted f → t = { s with st := .faulted f }

/-- `rb` is written only by AdjustRelativeBase, and read back only as a base (R27): no other step changes it. -/
def Obligations.OnlyAdjustRelativeBaseWritesTheBase : Prop :=
  ∀ s t : State, step s = .next t → t.rb ≠ s.rb →
    ∃ delta, fetchDecode s = .ok (.adjustRelativeBase delta) ∧ s.ReadReady 0 delta ∧
      t.rb = wrap64 (s.rb.toInt + (s.readValue 0 delta).toInt)

/-- The queues (R37, R151, R153; D20): only Input removes from `inq`, at the head, storing what it removes; only Output
appends to `outq`, and nothing removes from it. -/
def Obligations.QueuesMoveOnlyByInputAndOutput : Prop :=
  ∀ s t : State, step s = .next t →
    (t.inq = s.inq ∨
      ∃ dst x, fetchDecode s = .ok (.input dst) ∧ s.inq = x :: t.inq ∧ t.mem.read (s.writeTarget 0 dst) = x) ∧
    (t.outq = s.outq ∨
      ∃ src, fetchDecode s = .ok (.output src) ∧ t.outq = s.outq ++ [s.readValue 0 src])

/-- No step changes the parameters of the core (R39), and none shrinks the store; `extent` grows only to hold a cell the
step wrote, within `MEM_CAPACITY` (R31, R53; a finite capacity is the spec's choice, D17, log entry 13). -/
def Obligations.ExtentOnlyGrowsAndParametersStay : Prop :=
  ∀ s t : State, step s = .next t →
    t.cfg = s.cfg ∧ s.extent ≤ t.extent ∧
    (t.extent ≠ s.extent → ∃ i k m, fetchDecode s = .ok i ∧ writeOperandOf i = some (k, m) ∧
      t.extent = s.writeTarget k m + 1 ∧ t.extent ≤ s.cfg.memCapacity)

/-- A taken jump to a negative target completes, and the next step faults at its fetch with `ip` still there (R163; the
spec's choice, D12). -/
def Obligations.NegativeJumpTargetFaultsAtTheNextFetch : Prop :=
  ∀ (i : Instr) (s : State) (target : Word), s.st = .running → TakenJump i s target → target.toInt < 0 →
    ∃ t, exec i s = .next t ∧ t = { s with ip := target } ∧
      step t = .next { t with st := .faulted (.negativeAddress target) }

/-! ## Invariants, noninterference, refinement -/

/-- Every step keeps the invariant: canonical store, zero beyond the extent (R54), extent in range (R20), legal status
(R201, R208). The canonical form is the model's (log entry 2). -/
def Obligations.StepKeepsInv : Prop :=
  ∀ s t : State, s.Inv → step s = .next t → t.Inv

/-- The invariant is true after reset, for every program that R243 accepts. -/
def Obligations.InvAfterReset : Prop :=
  State.reset.Inv ∧ ∀ (c : Config) (program : List Word), program.length ≤ 2 ^ 63 → (State.load c program).Inv

/-- The invariant is kept by every host operation (R54, R253): load, push, patch, peek and the step request. -/
def Obligations.HostMovesKeepInv : Prop :=
  ∀ (s : State) (mv : HostMove), s.Inv → (∀ program, mv = .load program → program.length ≤ 2 ^ 63) →
    (hostMove s mv).Inv

/-- This spec's machine raises neither option fault (R201, R206, R207; D3, D17). -/
def Obligations.StandardMachineRaisesNoOptionFault : Prop :=
  ∀ s t : State, s.cfg = Config.standard → step s = .next t →
    t.st ≠ .faulted .arithmeticOverflow ∧ ∀ a, t.st ≠ .faulted (.capacityExceeded a)

/-- `extent` is hidden state (R38): two cores that differ in it alone take steps that differ in it alone, answer the same
and show the same memory, whatever `MEM_CAPACITY` is. -/
def Obligations.ExtentIsUnobservable : Prop :=
  ∀ s t : State, s.EqButExtent t →
    OutcomesEqButExtent (step s) (step t) ∧ (request s).2 = (request t).2 ∧ ∀ a, peek a s = peek a t

/-- The options `OVERFLOW_MODE = fault` and a finite `MEM_CAPACITY` only add faults (93_implementation_defined.md's warning on
U4; R56; D3, D17): a step that raises neither option fault is a step of this spec's machine over the cells that the core can
read, which are those below its capacity; where the others hold 0 it is that step over the whole store. The canonical form
of the store is the model's (log entry 2). -/
def Obligations.OptionsOnlyAddFaults : Prop :=
  ∀ s t : State, s.cfg.strictModeDigits = true → step s = .next t →
    (∀ f, t.st = .faulted f → f ≠ .arithmeticOverflow ∧ ∀ a, f ≠ .capacityExceeded a) →
    (s.mem.wf → step s.asStandard = .next t.asStandard) ∧
    ((∀ a, s.cfg.memCapacity ≤ a → s.mem.read a = 0) →
      step { s with cfg := Config.standard } = .next { t with cfg := Config.standard })

/-! ## Reset and the host's ports -/

/-- `Reset(P)` (R240): every item of the state, for every choice of the parameters. The cells of a program longer than a
finite `MEM_CAPACITY` are set too; a read of those at or above the capacity gives 0 all the same (R56,
`CapacityBoundsWritesAndReads`; log entry 13). -/
def Obligations.ResetBuildsTheWholeState : Prop :=
  ∀ (c : Config) (program : List Word),
    (∀ a (h : a < program.length), (State.load c program).mem.read a = program[a]) ∧
    (∀ a, program.length ≤ a → (State.load c program).mem.read a = 0) ∧
    (State.load c program).extent = program.length ∧ (State.load c program).ip = 0 ∧ (State.load c program).rb = 0 ∧
    (State.load c program).st = .running ∧ (State.load c program).inq = [] ∧ (State.load c program).outq = []

/-- PUSH_IN, PATCH and PEEK (R245, R246, R252; D20, D22, D25): each changes what it names and a faulting PATCH changes
nothing, `st` included. -/
def Obligations.HostPortsTouchOnlyWhatTheyName : Prop :=
  ∀ (s : State) (a x : Word),
    hostMove s (.pushIn x) = { s with inq := s.inq ++ [x] } ∧
    (a.toInt < 0 → patch a x s = .error (.negativeAddress a) ∧ hostMove s (.patch a x) = s ∧
      peek a s = .error (.negativeAddress a)) ∧
    (0 ≤ a.toInt → s.cfg.memCapacity ≤ a.toNat → patch a x s = .error (.capacityExceeded a) ∧
      hostMove s (.patch a x) = s) ∧
    (0 ≤ a.toInt → a.toNat < s.cfg.memCapacity →
      hostMove s (.patch a x) =
        { s with mem := s.mem.write a.toNat x, extent := max s.extent (a.toNat + 1) } ∧
      peek a (hostMove s (.patch a x)) = .ok x)

/-- `Run` (R248; D20, D14): it drives the step loop until the first request answered with a fault or `Done(Halt)`, and
returns that fault, or all of `outq`, in the state after that request; `unfinished`, the model's own (log entry 15), means
that the given number of requests had no such answer. An answered run ends Halted with `outq` extended, or Faulted; on a
Halted core it answers `AlreadyHalted` at once. -/
def Obligations.RunReturnsTheWholeOutput : Prop :=
  ∀ (n : Nat) (s : State),
    (∀ k < n, FirstAnswer endsRun k s →
      (nthAnswer k s = .done .halt → run n s = (afterRequests (k + 1) s, .ok (afterRequests (k + 1) s).outq)) ∧
      ∀ f, nthAnswer k s = .fault f → run n s = (afterRequests (k + 1) s, .err f)) ∧
    ((∀ k < n, endsRun (nthAnswer k s) = false) → run n s = (afterRequests n s, .unfinished)) ∧
    (∀ t outs, run n s = (t, .ok outs) →
      (∃ k < n, FirstAnswer endsRun k s ∧ t = afterRequests (k + 1) s) ∧
        t.st = .halted ∧ outs = t.outq ∧ s.outq <+: outs) ∧
    (∀ t f, run n s = (t, .err f) →
      (∃ k < n, FirstAnswer endsRun k s ∧ t = afterRequests (k + 1) s) ∧
        (t.st = .faulted f ∨ (f = .alreadyHalted ∧ t.st = .halted ∧ t = s))) ∧
    (s.st = .halted → run (n + 1) s = (s, .err .alreadyHalted))

/-- `RunToOut` (R249): it drives the step loop until the first request answered with a fault, `Done(Output)` or `Done(Halt)`,
and returns the fault, the newest value of `outq`, or `None`, in the state after that request; `unfinished`, the model's own
(log entry 15), means that the given number of requests had no such answer. It has then produced exactly one output and is
Running, or no output and is Halted, where a later call answers `AlreadyHalted` (D14, log entry 5), or is Faulted. -/
def Obligations.RunToOutStopsAfterOneOutput : Prop :=
  ∀ (n : Nat) (s : State),
    (∀ k < n, FirstAnswer endsRunToOut k s →
      (∀ m, nthAnswer k s = .done (.output m) →
        runToOut n s = (afterRequests (k + 1) s, .ok (afterRequests (k + 1) s).outq.getLast?)) ∧
      (nthAnswer k s = .done .halt → runToOut n s = (afterRequests (k + 1) s, .ok none)) ∧
      ∀ f, nthAnswer k s = .fault f → runToOut n s = (afterRequests (k + 1) s, .err f)) ∧
    ((∀ k < n, endsRunToOut (nthAnswer k s) = false) → runToOut n s = (afterRequests n s, .unfinished)) ∧
    (∀ t r, runToOut n s = (t, r) → r ≠ .unfinished →
      ∃ k < n, FirstAnswer endsRunToOut k s ∧ t = afterRequests (k + 1) s) ∧
    (∀ t v, runToOut n s = (t, .ok (some v)) → t.st = .running ∧ t.outq = s.outq ++ [v]) ∧
    (∀ t, runToOut n s = (t, .ok none) →
      t.st = .halted ∧ t.outq = s.outq ∧ runToOut (n + 1) t = (t, .err .alreadyHalted)) ∧
    (∀ t f, runToOut n s = (t, .err f) →
      t.outq = s.outq ∧ (t.st = .faulted f ∨ (f = .alreadyHalted ∧ t.st = .halted ∧ t = s)))

/-- `RunWith` (R250; D22, and D17 for `MEM_CAPACITY`): when PATCH accepts every address, all patches are applied, the last to
an address winning, and the result is that of `Run` on the patched core; otherwise the first patch that faults ends it, the
patches before it stay applied and no step is taken. -/
def Obligations.RunWithPatchesThenRuns : Prop :=
  ∀ (n : Nat) (patches : List (Word × Word)) (s : State),
    ((∀ p ∈ patches, s.AcceptsPatch p.1) ↔ ∃ t, applyPatches patches s = (t, none)) ∧
    (∀ t, applyPatches patches s = (t, none) → Patched patches s t ∧
      (∀ u outs, run n t = (u, .ok outs) → runWith n patches s = (u, .ok ())) ∧
      (∀ u f, run n t = (u, .err f) → runWith n patches s = (u, .err f)) ∧
      (∀ u, run n t = (u, .unfinished) → runWith n patches s = (u, .unfinished))) ∧
    (∀ t f, applyPatches patches s = (t, some f) →
      runWith n patches s = (t, .err f) ∧
      ∃ done a x rest, patches = done ++ (a, x) :: rest ∧ Patched done s t ∧ patch a x t = .error f ∧
        (f = .negativeAddress a ∨ f = .capacityExceeded a))

/-- Repeated `RunToOut` calls and one `Run` yield the same outputs in the same order, end in the same state and the former
return `None` at the halt (R258). -/
def Obligations.RunToOutCallsYieldTheOutputsOfRun : Prop :=
  (∀ (n k : Nat) (s t : State) (outs : List Word), run n s = (t, .ok outs) → outs.length < k →
      ∃ vs, drainOutputs n k s = (vs, t, .ok none) ∧ outs = s.outq ++ vs) ∧
  (∀ (n k : Nat) (s t : State) (vs : List Word), drainOutputs n k s = (vs, t, .ok none) →
      ∃ m, run m s = (t, .ok (s.outq ++ vs)))

/-- The fields of `st` and the fault codes and infos (R29, R201): the spec's own encoding (D15, D16). -/
def Obligations.StatusFieldsEncodeTheFault : Prop :=
  (∀ st : Status, (statusMode st).toNat ≤ 2 ∧ (statusMode st ≠ 2 → statusCode st = 0 ∧ statusInfo st = 0)) ∧
    statusMode .running = 0 ∧ statusMode .halted = 1 ∧
    (∀ f, statusMode (.faulted f) = 2 ∧ statusCode (.faulted f) = faultCode f ∧ statusInfo (.faulted f) = faultInfo f) ∧
    faultCode .parseError = 1 ∧ faultCode .readOutOfInput = 4 ∧ faultCode .alreadyHalted = 5 ∧
    faultCode .arithmeticOverflow = 6 ∧ faultInfo .parseError = 0 ∧ faultInfo .readOutOfInput = 0 ∧
    faultInfo .alreadyHalted = 0 ∧ faultInfo .arithmeticOverflow = 0 ∧
    ∀ w, faultCode (.negativeAddress w) = 2 ∧ faultInfo (.negativeAddress w) = w ∧ faultCode (.unknownOpcode w) = 3 ∧
      faultInfo (.unknownOpcode w) = w ∧ faultCode (.capacityExceeded w) = 7 ∧ faultInfo (.capacityExceeded w) = w

/-- A word placed where the step fetches is the instruction the very next step runs. Placing it stands for the load of a
program from outside the machine (log entry 4). At or above a finite `MEM_CAPACITY` there is nothing to read (R56, D17):
the step fetches 0 there, an illegal word. -/
def Obligations.PlacedWordIsRunByTheNextStep : Prop :=
  ∀ (s : State) (nbits w : Nat) (i : Instr), s.st = .running → 0 ≤ s.ip.toInt → s.cfg.strictModeDigits = true →
    decodeTableWord nbits w = some i →
    (s.ip.toNat < s.cfg.memCapacity → step (s.withFetchWord nbits w) = exec i (s.withFetchWord nbits w)) ∧
    (s.cfg.memCapacity ≤ s.ip.toNat →
      step (s.withFetchWord nbits w) = .next (takeFault (.unknownOpcode 0) (s.withFetchWord nbits w)))

/-- The state the model calls reset is the load of the empty program with the defaults of R7, the model's choice (log entries
3 and 4), and its first step enters `UnknownOpcode(0)`: no program runs until one is loaded. -/
def Obligations.ResetStateIsTheEmptyProgram : Prop :=
  State.reset = State.load Config.standard [] ∧
    step State.reset = .next { State.reset with st := .faulted (.unknownOpcode 0) }

/-- `MEM_CAPACITY` (R56; the spec's choice, D17): at or above it a write raises `CapacityExceeded`, by an instruction or by
PATCH, and a read gives 0, by an instruction, a fetch or PEEK, whatever was loaded there; with the default of 2^63 every
write to a non-negative address succeeds and every read of one is of its cell. -/
def Obligations.CapacityBoundsWritesAndReads : Prop :=
  ∀ (s : State) (a v : Word), 0 ≤ a.toInt →
    (s.cfg.memCapacity ≤ a.toNat →
      memWrite s a v = .error (.capacityExceeded a) ∧ patch a v s = .error (.capacityExceeded a) ∧
        memRead s a = .ok 0 ∧ fetch (jumpTo s a) = .ok 0 ∧ peek a s = .ok 0) ∧
    (s.cfg.memCapacity = Config.standard.memCapacity →
      memWrite s a v = .ok (storeCell s a.toNat v) ∧ memRead s a = .ok (s.mem.read a.toNat))
end

