-- ==== Sys2Proof/Laws/Memory.lean ====
section
/-! SUPPORT. The cell store: what a read gives after each operation, and that each operation keeps the canonical form. -/

namespace Sys2Proof.Machine

@[simp] theorem Memory.read_nil (a : Nat) : Memory.read [] a = 0 := rfl

theorem Memory.read_cons (b : Nat) (w : Word) (m : Memory) (a : Nat) :
    Memory.read ((b, w) :: m) a = if a = b then w else Memory.read m a := rfl

theorem Memory.read_erase (m : Memory) (a b : Nat) : (m.erase a).read b = if b = a then 0 else m.read b := by
  induction m with
  | nil => simp [Memory.erase]
  | cons p m ih =>
    obtain ⟨c, w⟩ := p
    simp only [Memory.erase, List.filter_cons] at ih ⊢
    by_cases hc : c = a <;> by_cases hb : b = a <;> by_cases hbc : b = c <;>
      simp_all [Memory.read_cons]

theorem Memory.mem_erase {m : Memory} {a : Nat} {p : Nat × Word} : p ∈ m.erase a ↔ p ∈ m ∧ p.1 ≠ a := by
  simp [Memory.erase]

theorem Memory.mem_insert {m : Memory} {a : Nat} {v : Word} {p : Nat × Word} :
    p ∈ Memory.insert a v m ↔ p = (a, v) ∨ p ∈ m := by
  induction m with
  | nil => simp [Memory.insert]
  | cons q m ih =>
    obtain ⟨b, w⟩ := q
    simp only [Memory.insert]
    split
    · simp
    · simp [ih, or_left_comm]

theorem Memory.read_insert {m : Memory} {a : Nat} (v : Word) (b : Nat) (h : ∀ p ∈ m, p.1 ≠ a) :
    (Memory.insert a v m).read b = if b = a then v else m.read b := by
  induction m with
  | nil => simp [Memory.insert, Memory.read_cons]
  | cons q m ih =>
    obtain ⟨c, w⟩ := q
    have hc : c ≠ a := h (c, w) (by simp)
    have ih' := ih fun p hp => h p (by simp [hp])
    simp only [Memory.insert]
    split
    · simp [Memory.read_cons]
    · simp only [Memory.read_cons, ih']
      split <;> split <;> simp_all

/-- What a read gives after a write, on every list (20_memory.md R53). -/
theorem Memory.read_write (m : Memory) (a b : Nat) (v : Word) :
    (m.write a v).read b = if b = a then v else m.read b := by
  unfold Memory.write
  split
  · next h => simp [Memory.read_erase, h]
  · rw [Memory.read_insert v b fun p hp => (Memory.mem_erase.mp hp).2, Memory.read_erase]
    split <;> simp_all

@[simp] theorem Memory.read_write_same (m : Memory) (a : Nat) (v : Word) : (m.write a v).read a = v := by
  simp [Memory.read_write]

theorem Memory.read_write_other (m : Memory) {a b : Nat} (v : Word) (h : b ≠ a) :
    (m.write a v).read b = m.read b := by
  simp [Memory.read_write, h]

theorem Memory.wf_nil : Memory.wf [] := by decide

theorem Memory.erase_wf {m : Memory} (h : m.wf) (a : Nat) : (m.erase a).wf :=
  ⟨h.1.filter _, fun p hp => h.2 p (Memory.mem_erase.mp hp).1⟩

theorem Memory.insert_pairwise {m : Memory} {a : Nat} (v : Word) (hm : m.Pairwise (fun p q => p.1 < q.1))
    (ha : ∀ p ∈ m, p.1 ≠ a) : (Memory.insert a v m).Pairwise (fun p q => p.1 < q.1) := by
  induction m with
  | nil => simp [Memory.insert]
  | cons q m ih =>
    obtain ⟨b, w⟩ := q
    rw [List.pairwise_cons] at hm
    have hb : b ≠ a := ha (b, w) (by simp)
    simp only [Memory.insert]
    split
    · next hlt =>
      refine List.pairwise_cons.mpr ⟨fun p hp => ?_, List.pairwise_cons.mpr hm⟩
      rcases List.mem_cons.mp hp with rfl | hp
      · exact hlt
      · exact lt_trans hlt (hm.1 p hp)
    · refine List.pairwise_cons.mpr ⟨fun p hp => ?_, ih hm.2 fun p hp => ha p (by simp [hp])⟩
      rcases Memory.mem_insert.mp hp with rfl | hp
      · show b < a
        omega
      · exact hm.1 p hp

/-- A write keeps the canonical form. -/
theorem Memory.write_wf {m : Memory} (h : m.wf) (a : Nat) (v : Word) : (m.write a v).wf := by
  have he := Memory.erase_wf h a
  unfold Memory.write
  split
  · exact he
  · next hv =>
    refine ⟨Memory.insert_pairwise v he.1 fun p hp => (Memory.mem_erase.mp hp).2, fun p hp => ?_⟩
    rcases Memory.mem_insert.mp hp with rfl | hp
    · exact hv
    · exact he.2 p hp

theorem Memory.le_of_mem_ofWords {ws : List Word} {a : Nat} {p : Nat × Word} (h : p ∈ Memory.ofWords a ws) :
    a ≤ p.1 := by
  induction ws generalizing a with
  | nil => simp [Memory.ofWords] at h
  | cons w ws ih =>
    simp only [Memory.ofWords] at h
    split at h
    · exact (ih h).trans' (by omega)
    · rcases List.mem_cons.mp h with rfl | h
      · exact le_rfl
      · exact (ih h).trans' (by omega)

/-- A loaded store is in canonical form. -/
theorem Memory.ofWords_wf (a : Nat) (ws : List Word) : (Memory.ofWords a ws).wf := by
  induction ws generalizing a with
  | nil => exact Memory.wf_nil
  | cons w ws ih =>
    simp only [Memory.ofWords]
    split
    · exact ih (a + 1)
    · next hw =>
      refine ⟨List.pairwise_cons.mpr ⟨fun p hp => ?_, (ih (a + 1)).1⟩, fun p hp => ?_⟩
      · have := Memory.le_of_mem_ofWords hp
        show a < p.1
        omega
      · rcases List.mem_cons.mp hp with rfl | hp
        · exact hw
        · exact (ih (a + 1)).2 p hp

theorem Memory.read_eq_zero {m : Memory} {a : Nat} (h : ∀ p ∈ m, p.1 ≠ a) : m.read a = 0 := by
  induction m with
  | nil => rfl
  | cons p m ih =>
    obtain ⟨b, w⟩ := p
    have hb : b ≠ a := h (b, w) (by simp)
    rw [Memory.read_cons, if_neg (Ne.symm hb), ih fun p hp => h p (by simp [hp])]

/-- What a read gives of the store cut off at an address. -/
theorem Memory.read_below (m : Memory) (n a : Nat) : (m.below n).read a = if n ≤ a then 0 else m.read a := by
  induction m with
  | nil => simp [Memory.below]
  | cons p m ih =>
    obtain ⟨c, w⟩ := p
    simp only [Memory.below, List.filter_cons] at ih ⊢
    rcases Nat.lt_or_ge c n with hc | hc <;> by_cases ha : a = c <;>
      simp_all [Memory.read_cons, Nat.not_lt.mpr, Nat.not_le.mpr]

theorem Memory.below_wf {m : Memory} (h : m.wf) (n : Nat) : (m.below n).wf :=
  ⟨h.1.filter _, fun p hp => h.2 p (List.mem_filter.mp hp).1⟩

theorem Memory.read_of_mem {m : Memory} (h : m.Pairwise (fun p q => p.1 < q.1)) {a : Nat} {v : Word}
    (hm : (a, v) ∈ m) : m.read a = v := by
  induction m with
  | nil => simp at hm
  | cons p m ih =>
    obtain ⟨b, w⟩ := p
    rw [List.pairwise_cons] at h
    rw [Memory.read_cons]
    rcases List.mem_cons.mp hm with heq | hm
    · obtain ⟨rfl, rfl⟩ := Prod.mk.inj heq
      simp
    · have hlt : b < a := h.1 (a, v) hm
      rw [if_neg (by omega), ih h.2 hm]

end Sys2Proof.Machine
end

