-- ==== Sys2Proof/Laws/State.lean ====
section
/-! SUPPORT. One lemma per field of the state for each named update, true by definition. -/

namespace Sys2Proof.Machine

/-! `takeFault`. -/
@[simp] theorem takeFault_mem (f : Fault) (s : State) : (takeFault f s).mem = s.mem := rfl
@[simp] theorem takeFault_extent (f : Fault) (s : State) : (takeFault f s).extent = s.extent := rfl
@[simp] theorem takeFault_ip (f : Fault) (s : State) : (takeFault f s).ip = s.ip := rfl
@[simp] theorem takeFault_rb (f : Fault) (s : State) : (takeFault f s).rb = s.rb := rfl
@[simp] theorem takeFault_st (f : Fault) (s : State) : (takeFault f s).st = .faulted f := rfl
@[simp] theorem takeFault_inq (f : Fault) (s : State) : (takeFault f s).inq = s.inq := rfl
@[simp] theorem takeFault_outq (f : Fault) (s : State) : (takeFault f s).outq = s.outq := rfl
@[simp] theorem takeFault_cfg (f : Fault) (s : State) : (takeFault f s).cfg = s.cfg := rfl
@[simp] theorem takeFault_wordAt (f : Fault) (s : State) (a : Nat) : (takeFault f s).wordAt a = s.wordAt a := rfl

/-! `storeCell`. -/
@[simp] theorem storeCell_mem (s : State) (a : Nat) (v : Word) : (storeCell s a v).mem = s.mem.write a v := rfl
@[simp] theorem storeCell_extent (s : State) (a : Nat) (v : Word) : (storeCell s a v).extent = if s.extent ≤ a then a + 1 else s.extent := rfl
@[simp] theorem storeCell_ip (s : State) (a : Nat) (v : Word) : (storeCell s a v).ip = s.ip := rfl
@[simp] theorem storeCell_rb (s : State) (a : Nat) (v : Word) : (storeCell s a v).rb = s.rb := rfl
@[simp] theorem storeCell_st (s : State) (a : Nat) (v : Word) : (storeCell s a v).st = s.st := rfl
@[simp] theorem storeCell_inq (s : State) (a : Nat) (v : Word) : (storeCell s a v).inq = s.inq := rfl
@[simp] theorem storeCell_outq (s : State) (a : Nat) (v : Word) : (storeCell s a v).outq = s.outq := rfl
@[simp] theorem storeCell_cfg (s : State) (a : Nat) (v : Word) : (storeCell s a v).cfg = s.cfg := rfl

/-! `jumpTo`. -/
@[simp] theorem jumpTo_mem (s : State) (t : Word) : (jumpTo s t).mem = s.mem := rfl
@[simp] theorem jumpTo_extent (s : State) (t : Word) : (jumpTo s t).extent = s.extent := rfl
@[simp] theorem jumpTo_ip (s : State) (t : Word) : (jumpTo s t).ip = t := rfl
@[simp] theorem jumpTo_rb (s : State) (t : Word) : (jumpTo s t).rb = s.rb := rfl
@[simp] theorem jumpTo_st (s : State) (t : Word) : (jumpTo s t).st = s.st := rfl
@[simp] theorem jumpTo_inq (s : State) (t : Word) : (jumpTo s t).inq = s.inq := rfl
@[simp] theorem jumpTo_outq (s : State) (t : Word) : (jumpTo s t).outq = s.outq := rfl
@[simp] theorem jumpTo_cfg (s : State) (t : Word) : (jumpTo s t).cfg = s.cfg := rfl
@[simp] theorem jumpTo_wordAt (s : State) (t : Word) (a : Nat) : (jumpTo s t).wordAt a = s.wordAt a := rfl

/-! `pushOutput`. -/
@[simp] theorem pushOutput_mem (s : State) (v : Word) : (pushOutput s v).mem = s.mem := rfl
@[simp] theorem pushOutput_extent (s : State) (v : Word) : (pushOutput s v).extent = s.extent := rfl
@[simp] theorem pushOutput_ip (s : State) (v : Word) : (pushOutput s v).ip = s.ip := rfl
@[simp] theorem pushOutput_rb (s : State) (v : Word) : (pushOutput s v).rb = s.rb := rfl
@[simp] theorem pushOutput_st (s : State) (v : Word) : (pushOutput s v).st = s.st := rfl
@[simp] theorem pushOutput_inq (s : State) (v : Word) : (pushOutput s v).inq = s.inq := rfl
@[simp] theorem pushOutput_outq (s : State) (v : Word) : (pushOutput s v).outq = s.outq ++ [v] := rfl
@[simp] theorem pushOutput_cfg (s : State) (v : Word) : (pushOutput s v).cfg = s.cfg := rfl
@[simp] theorem pushOutput_wordAt (s : State) (v : Word) (a : Nat) : (pushOutput s v).wordAt a = s.wordAt a := rfl

/-! `pushIn`. -/
@[simp] theorem pushIn_mem (x : Word) (s : State) : (pushIn x s).mem = s.mem := rfl
@[simp] theorem pushIn_extent (x : Word) (s : State) : (pushIn x s).extent = s.extent := rfl
@[simp] theorem pushIn_ip (x : Word) (s : State) : (pushIn x s).ip = s.ip := rfl
@[simp] theorem pushIn_rb (x : Word) (s : State) : (pushIn x s).rb = s.rb := rfl
@[simp] theorem pushIn_st (x : Word) (s : State) : (pushIn x s).st = s.st := rfl
@[simp] theorem pushIn_inq (x : Word) (s : State) : (pushIn x s).inq = s.inq ++ [x] := rfl
@[simp] theorem pushIn_outq (x : Word) (s : State) : (pushIn x s).outq = s.outq := rfl
@[simp] theorem pushIn_cfg (x : Word) (s : State) : (pushIn x s).cfg = s.cfg := rfl
@[simp] theorem pushIn_wordAt (x : Word) (s : State) (a : Nat) : (pushIn x s).wordAt a = s.wordAt a := rfl

/-- The extent after a store is the larger of the old one and the one that holds the cell. -/
theorem storeCell_extent_eq_max (s : State) (a : Nat) (v : Word) : (storeCell s a v).extent = max s.extent (a + 1) := by
  simp only [storeCell_extent]
  split <;> omega

/-- Loading the empty program is the reset state. -/
theorem load_nil : State.load Config.standard [] = State.reset := rfl

end Sys2Proof.Machine
end

