-- ==== Sys2Proof/Laws/Ops.lean ====
section
/-! SUPPORT. One lemma for each shared operation that says everything it can do. -/

namespace Sys2Proof.Machine

/-- The adder and the multiplier: the wrapped exact result, or the option fault (00_scope.md R9). -/
theorem narrow_eq (c : Config) (z : Int) :
    narrow c z = if c.overflowMode = .wrap ∨ InI64 z then .ok (wrap64 z) else .error .arithmeticOverflow := by
  unfold narrow
  cases h : c.overflowMode <;> by_cases hz : InI64 z <;> simp [hz]

theorem narrow_ok {c : Config} {z : Int} (h : c.Admits z) : narrow c z = .ok (wrap64 z) := by
  rw [narrow_eq, if_pos h]

theorem narrow_cases (c : Config) (z : Int) :
    (c.Admits z ∧ narrow c z = .ok (wrap64 z)) ∨
      (¬ c.Admits z ∧ c.overflowMode = .fault ∧ narrow c z = .error .arithmeticOverflow) := by
  by_cases h : c.Admits z
  · exact .inl ⟨h, narrow_ok h⟩
  · refine .inr ⟨h, ?_, ?_⟩
    · cases hm : c.overflowMode
      · exact absurd (.inl hm) h
      · rfl
    · rw [narrow_eq, if_neg h]

/-- The integer a wrapped exact result in range denotes. -/
theorem toInt_wrap64 {z : Int} (h : InI64 z) : (wrap64 z).toInt = z := by
  obtain ⟨h1, h2⟩ := h
  rw [BitVec.toInt_ofInt, Int.bmod_eq_of_le] <;> omega

/-- A non-negative word is its own address, below 2^63. -/
theorem toNat_of_nonneg {a : Word} (h : 0 ≤ a.toInt) : (a.toNat : Int) = a.toInt ∧ a.toNat < 2 ^ 63 := by
  have := a.isLt
  rw [BitVec.toInt_eq_toNat_cond] at h ⊢
  split at h <;> split <;> omega

/-- What a read gives below the capacity, and at or above it (20_memory.md R52, R56). -/
theorem wordAt_below {s : State} {a : Nat} (h : a < s.cfg.memCapacity) : s.wordAt a = s.mem.read a :=
  if_neg (not_le.mpr h)

theorem wordAt_above {s : State} {a : Nat} (h : s.cfg.memCapacity ≤ a) : s.wordAt a = 0 := if_pos h

/-- Beyond the extent a read gives 0 (20_memory.md R52, R54). -/
theorem State.Inv.wordAt_beyond_extent {s : State} (hi : s.Inv) {a : Nat} (h : s.extent ≤ a) : s.wordAt a = 0 := by
  simp [State.wordAt, hi.zeroBeyondExtent a h]

/-- What a read gives after a store to a cell below the capacity (20_memory.md R53). -/
theorem wordAt_storeCell {s : State} {a : Nat} (v : Word) (h : a < s.cfg.memCapacity) (b : Nat) :
    (storeCell s a v).wordAt b = if b = a then v else s.wordAt b := by
  simp only [State.wordAt, storeCell_cfg, storeCell_mem, Memory.read_write]
  split <;> split <;> first | rfl | omega

theorem memRead_neg {s : State} {a : Word} (h : a.toInt < 0) : memRead s a = .error (.negativeAddress a) := by
  simp [memRead, h]

theorem memRead_nonneg {s : State} {a : Word} (h : 0 ≤ a.toInt) : memRead s a = .ok (s.wordAt a.toNat) := by
  simp [memRead, not_lt.mpr h]

theorem memRead_error {s : State} {a : Word} {f : Fault} (h : memRead s a = .error f) :
    a.toInt < 0 ∧ f = .negativeAddress a := by
  unfold memRead at h
  split at h <;> simp_all

/-- Everything `MemWrite` can do (20_memory.md R53). -/
theorem memWrite_cases (s : State) (a v : Word) :
    (a.toInt < 0 ∧ memWrite s a v = .error (.negativeAddress a)) ∨
      (0 ≤ a.toInt ∧ s.cfg.memCapacity ≤ a.toNat ∧ memWrite s a v = .error (.capacityExceeded a)) ∨
      (0 ≤ a.toInt ∧ a.toNat < s.cfg.memCapacity ∧ memWrite s a v = .ok (storeCell s a.toNat v)) := by
  unfold memWrite
  by_cases h1 : a.toInt < 0
  · simp [h1]
  · by_cases h2 : s.cfg.memCapacity ≤ a.toNat
    · simp [h1, h2, not_lt.mp h1]
    · simp [h1, h2, not_lt.mp h1, not_le.mp h2]

theorem memWrite_ok {s t : State} {a v : Word} (h : memWrite s a v = .ok t) :
    0 ≤ a.toInt ∧ a.toNat < s.cfg.memCapacity ∧ t = storeCell s a.toNat v := by
  rcases memWrite_cases s a v with ⟨-, e⟩ | ⟨-, -, e⟩ | ⟨h1, h2, e⟩ <;> rw [e] at h <;> simp_all

theorem memWrite_error {s : State} {a v : Word} {f : Fault} (h : memWrite s a v = .error f) :
    (a.toInt < 0 ∧ f = .negativeAddress a) ∨
      (0 ≤ a.toInt ∧ s.cfg.memCapacity ≤ a.toNat ∧ f = .capacityExceeded a) := by
  rcases memWrite_cases s a v with ⟨h1, e⟩ | ⟨h1, h2, e⟩ | ⟨-, -, e⟩ <;> rw [e] at h <;> simp_all

/-- A small length is the integer it is written as. -/
theorem toInt_ofNat_small {n : Nat} (h : n < 2 ^ 63) : (BitVec.ofNat 64 n).toInt = n := by
  rw [BitVec.toInt_eq_toNat_cond, BitVec.toNat_ofNat, Nat.mod_eq_of_lt (by omega)]
  split <;> omega

/-- Everything the advance can do (40_sequencer_and_operands.md R125). -/
theorem advance_cases (s : State) {n : Nat} (hn : n < 2 ^ 63) :
    (s.AdvanceReady n ∧ advance s n = .ok { s with ip := s.ipAfter n }) ∨
      (¬ s.AdvanceReady n ∧ s.cfg.overflowMode = .fault ∧ advance s n = .error .arithmeticOverflow) := by
  unfold advance add64 State.ipAfter
  rw [toInt_ofNat_small hn]
  rcases narrow_cases s.cfg (s.ip.toInt + n) with ⟨h, e⟩ | ⟨h, hc, e⟩
  · exact .inl ⟨h, by rw [e]⟩
  · exact .inr ⟨h, hc, by rw [e]⟩

theorem advance_ok {s t : State} {n : Nat} (hn : n < 2 ^ 63) (h : advance s n = .ok t) :
    s.AdvanceReady n ∧ t = { s with ip := s.ipAfter n } := by
  rcases advance_cases s hn with ⟨h1, e⟩ | ⟨-, -, e⟩ <;> rw [e] at h <;> simp_all

theorem advance_error {s : State} {n : Nat} (hn : n < 2 ^ 63) {f : Fault} (h : advance s n = .error f) :
    s.cfg.overflowMode = .fault ∧ f = .arithmeticOverflow := by
  rcases advance_cases s hn with ⟨-, e⟩ | ⟨-, hc, e⟩ <;> rw [e] at h <;> simp_all

theorem popInput_ok {s t : State} {x : Word} (h : popInput s = .ok (x, t)) :
    s.inq = x :: t.inq ∧ t = { s with inq := t.inq } := by
  unfold popInput at h
  split at h
  · simp at h
  · next hq =>
    simp only [Except.ok.injEq, Prod.mk.injEq] at h
    obtain ⟨rfl, rfl⟩ := h
    exact ⟨hq, rfl⟩

theorem popInput_error {s : State} {f : Fault} (h : popInput s = .error f) : s.inq = [] ∧ f = .readOutOfInput := by
  unfold popInput at h
  split at h
  · next hq => simp_all
  · simp at h

/-- The end of a step is a next state in both cases (60_exceptions.md R210, R214). -/
theorem commit_cases (s : State) (r : Except Fault State) :
    (∃ t, r = .ok t ∧ commit s r = .next t) ∨ (∃ f, r = .error f ∧ commit s r = .next (takeFault f s)) := by
  cases r with
  | ok t => exact .inl ⟨t, rfl, rfl⟩
  | error f => exact .inr ⟨f, rfl, rfl⟩

/-- Fetch and decode, with the fetch address valid (R112, R113). -/
theorem fetchDecode_nonneg {s : State} (h : 0 ≤ s.ip.toInt) :
    fetchDecode s = match decode s.cfg.strictModeDigits (s.wordAt s.ip.toNat) with
      | .ok i => .ok i
      | .error (.unknownOpcode w) => .error (.unknownOpcode w) := by
  rcases hd : decode s.cfg.strictModeDigits (s.wordAt s.ip.toNat) with ⟨⟨w⟩⟩ | i <;>
    simp [fetchDecode, fetch, memRead_nonneg h, hd]

theorem decode_error {b : Bool} {v : Word} {e : DecodeFault} (h : decode b v = .error e) : e = .unknownOpcode v := by
  unfold decode at h
  split at h
  · simp_all
  · split at h <;> simp_all

/-- The faults of fetch and decode. -/
theorem fetchDecode_error {s : State} {f : Fault} (h : fetchDecode s = .error f) :
    (s.ip.toInt < 0 ∧ f = .negativeAddress s.ip) ∨
      (0 ≤ s.ip.toInt ∧ f = .unknownOpcode (s.wordAt s.ip.toNat) ∧
        ∀ i, decode s.cfg.strictModeDigits (s.wordAt s.ip.toNat) ≠ .ok i) := by
  by_cases hip : s.ip.toInt < 0
  · left
    simp only [fetchDecode, fetch, memRead_neg hip, Except.error.injEq] at h
    exact ⟨hip, h.symm⟩
  · right
    rw [fetchDecode_nonneg (not_lt.mp hip)] at h
    split at h
    · simp at h
    · next w hd =>
      obtain rfl := (DecodeFault.unknownOpcode.inj (decode_error hd)).symm
      exact ⟨not_lt.mp hip, by simp_all, by simp [hd]⟩

end Sys2Proof.Machine
end

