-- ==== Sys2Proof/Laws/Operands.lean ====
section
/-! SUPPORT. The operand resolver in terms of the integers of Safety.lean: what each mode resolves to, and its faults
(spec/40_sequencer_and_operands.md rules R115 to R122). -/

namespace Sys2Proof.Machine

/-- The faults that everything but Input's queue check can raise on a core with parameters `c`. -/
abbrev Raisable (c : Config) (f : Fault) : Prop := f.Possible c ∧ f ≠ .readOutOfInput

theorem toInt_small_of_lt {k : Nat} (hk : k < 3) : (BitVec.ofNat 64 (1 + k) : Word).toInt = 1 + k := by
  rw [toInt_ofNat_small (by omega)]
  push_cast
  ring

/-- The parameter read in range (R115). -/
theorem readParam_inRange {s : State} {k : Nat} (hk : k < 3) (h : s.ParamInRange k) :
    readParam s k = .ok (s.paramAt k) := by
  obtain ⟨h1, h2⟩ := h
  have hz : InI64 (s.ip.toInt + (1 + (k : Int))) := ⟨by omega, by omega⟩
  have ha : (wrap64 (s.ip.toInt + (1 + (k : Int)))).toInt = s.ip.toInt + 1 + k := by
    rw [toInt_wrap64 hz]; ring
  have hn := toNat_of_nonneg (a := wrap64 (s.ip.toInt + (1 + (k : Int)))) (by omega)
  unfold readParam add64 State.paramAt
  rw [toInt_small_of_lt hk, narrow_ok (.inr hz)]
  simp only
  rw [memRead_nonneg (by omega)]
  congr 2
  omega

/-- The parameter read out of range (R115, 10_state.md R26). -/
theorem readParam_outOfRange {s : State} {k : Nat} (hk : k < 3) (h : ¬ s.ParamInRange k) :
    readParam s k =
      if s.cfg.overflowMode = .wrap ∨ InI64 (s.ip.toInt + 1 + k) then
        .error (.negativeAddress (wrap64 (s.ip.toInt + 1 + k)))
      else .error .arithmeticOverflow := by
  have hlo := BitVec.le_toInt s.ip
  have hhi := BitVec.toInt_lt (x := s.ip)
  have he : s.ip.toInt + (1 + (k : Int)) = s.ip.toInt + 1 + k := by ring
  have hneg : (wrap64 (s.ip.toInt + 1 + k)).toInt < 0 := by
    unfold State.ParamInRange at h
    by_cases hc : 0 ≤ s.ip.toInt + 1 + k
    · have h3 : 2 ^ 63 ≤ s.ip.toInt + 1 + k := by
        by_contra hlt
        exact h ⟨hc, by omega⟩
      have : (wrap64 (s.ip.toInt + 1 + k)).toInt = s.ip.toInt + 1 + k - 2 ^ 64 := by
        rw [← Int.bmod_eq_of_le (n := s.ip.toInt + 1 + k - 2 ^ 64) (m := 2 ^ 64) (by omega) (by omega),
          BitVec.toInt_ofInt]
        exact (Int.sub_bmod_right (s.ip.toInt + 1 + k) (2 ^ 64)).symm
      omega
    · rw [toInt_wrap64 ⟨by omega, by omega⟩]
      omega
  unfold readParam add64
  rw [toInt_small_of_lt hk, he, narrow_eq]
  by_cases hc : s.cfg.overflowMode = .wrap ∨ InI64 (s.ip.toInt + 1 + k)
  · rw [if_pos hc, if_pos hc]
    exact memRead_neg hneg
  · rw [if_neg hc, if_neg hc]

/-- Everything the parameter read can do. -/
theorem readParam_cases (s : State) {k : Nat} (hk : k < 3) :
    (s.ParamInRange k ∧ readParam s k = .ok (s.paramAt k)) ∨
      (¬ s.ParamInRange k ∧ ∃ f, readParam s k = .error f ∧ Raisable s.cfg f) := by
  by_cases h : s.ParamInRange k
  · exact .inl ⟨h, readParam_inRange hk h⟩
  · refine .inr ⟨h, ?_⟩
    cases hr : readParam s k with
    | ok p =>
      rw [readParam_outOfRange hk h] at hr
      split at hr <;> simp at hr
    | error f =>
      refine ⟨f, rfl, ?_⟩
      unfold readParam at hr
      split at hr
      · next g hg =>
        obtain rfl := Except.error.inj hr
        rcases narrow_cases s.cfg (s.ip.toInt + (BitVec.ofNat 64 (1 + k) : Word).toInt) with ⟨-, e⟩ | ⟨-, hc, e⟩
        · rw [add64, e] at hg; simp at hg
        · rw [add64, e] at hg
          obtain rfl := Except.error.inj hg
          exact ⟨hc, by simp⟩
      · obtain ⟨h1, rfl⟩ := memRead_error hr
        exact ⟨h1, by simp⟩

theorem relativeAddress_paramAt (s : State) (k : Nat) :
    relativeAddress s (s.paramAt k) = narrow s.cfg (s.relativeSum k) := rfl

/-- Everything a read operand can do (R115 to R118). -/
theorem readOperand_cases (s : State) {k : Nat} (hk : k < 3) (m : Mode) :
    (s.ReadReady k m ∧ readOperand s k m = .ok (s.readValue k m)) ∨
      (¬ s.ReadReady k m ∧ ∃ f, readOperand s k m = .error f ∧ Raisable s.cfg f) := by
  unfold readOperand
  rcases readParam_cases s hk with ⟨hr, e⟩ | ⟨hr, f, e, hf⟩
  · rw [e]
    cases m with
    | position =>
      by_cases hp : (s.paramAt k).toInt < 0
      · exact .inr ⟨fun h => absurd h.2 (not_le.mpr hp), _, memRead_neg hp, hp, by simp⟩
      · exact .inl ⟨⟨hr, not_lt.mp hp⟩, memRead_nonneg (not_lt.mp hp)⟩
    | immediate => exact .inl ⟨hr, rfl⟩
    | relative =>
      simp only [readByMode, relativeAddress_paramAt]
      rcases narrow_cases s.cfg (s.relativeSum k) with ⟨ha, e'⟩ | ⟨ha, hc, e'⟩
      · rw [e']
        by_cases hp : (s.relativeCell k).toInt < 0
        · exact .inr ⟨fun h => absurd h.2.2 (not_le.mpr hp), _, memRead_neg hp, hp, by simp⟩
        · exact .inl ⟨⟨hr, ha, not_lt.mp hp⟩, memRead_nonneg (not_lt.mp hp)⟩
      · rw [e']
        exact .inr ⟨fun h => absurd h.2.1 ha, .arithmeticOverflow, rfl, hc, by simp⟩
  · rw [e]
    refine .inr ⟨fun h => hr ?_, f, rfl, hf⟩
    cases m with
    | position => exact h.1
    | immediate => exact h
    | relative => exact h.1

theorem checkAddress_eq (a : Word) :
    checkAddress a = if a.toInt < 0 then .error (.negativeAddress a) else .ok a := rfl

/-- The address word of a write operand (R119, R120). -/
def State.targetWord (s : State) (k : Nat) : WMode → Word
  | .position => s.paramAt k
  | .relative => s.relativeCell k

@[simp] theorem targetWord_toNat (s : State) (k : Nat) (m : WMode) :
    (s.targetWord k m).toNat = s.writeTarget k m := by
  cases m <;> rfl

/-- Everything a write operand can do (R115, R119, R120). -/
theorem writeOperand_cases (s : State) {k : Nat} (hk : k < 3) (m : WMode) :
    (s.WriteReady k m ∧ 0 ≤ (s.targetWord k m).toInt ∧ writeOperand s k m = .ok (s.targetWord k m)) ∨
      (¬ s.WriteReady k m ∧ ∃ f, writeOperand s k m = .error f ∧ Raisable s.cfg f) := by
  unfold writeOperand
  rcases readParam_cases s hk with ⟨hr, e⟩ | ⟨hr, f, e, hf⟩
  · rw [e]
    cases m with
    | position =>
      by_cases hp : (s.paramAt k).toInt < 0
      · exact .inr ⟨fun h => absurd h.2 (not_le.mpr hp), .negativeAddress _,
          by simp only [addressByMode, checkAddress_eq, if_pos hp], hp, by simp⟩
      · exact .inl ⟨⟨hr, not_lt.mp hp⟩, not_lt.mp hp,
          by simp only [addressByMode, checkAddress_eq, if_neg hp, State.targetWord]⟩
    | relative =>
      simp only [addressByMode, relativeAddress_paramAt]
      rcases narrow_cases s.cfg (s.relativeSum k) with ⟨ha, e'⟩ | ⟨ha, hc, e'⟩
      · rw [e']
        by_cases hp : (s.relativeCell k).toInt < 0
        · exact .inr ⟨fun h => absurd h.2.2 (not_le.mpr hp), .negativeAddress _,
            by simp only [checkAddress_eq]; exact if_pos hp, hp, by simp⟩
        · exact .inl ⟨⟨hr, ha, not_lt.mp hp⟩, not_lt.mp hp,
            by simp only [checkAddress_eq]; exact if_neg hp⟩
      · rw [e']
        exact .inr ⟨fun h => absurd h.2.1 ha, .arithmeticOverflow, rfl, hc, by simp⟩
  · rw [e]
    refine .inr ⟨fun h => hr ?_, f, rfl, hf⟩
    cases m with
    | position => exact h.1
    | relative => exact h.1

end Sys2Proof.Machine
end

