-- ==== Sys2Proof/Laws/Exec.lean ====
section
/-! SUPPORT. One inversion lemma for each shape of instruction: the outcome of `exec` is one of the listed cases, with the
guards of each. Later proofs cite these and unfold no meaning. -/

namespace Sys2Proof.Machine

/-- What the execute stage of format F3 can do (41_arithmetic.md R140, R141; 44_compare.md R170, R171): the finished
store, or a fault entry. `Possible` says which faults. -/
theorem computeAndStore_cases (f : Config → Word → Word → Except Fault Word) (a b : Mode) (dst : WMode) (s : State)
    (hf : ∀ x y g, f s.cfg x y = .error g → Raisable s.cfg g) :
    (∃ r, s.ReadReady 0 a ∧ s.ReadReady 1 b ∧ s.WriteReady 2 dst ∧ f s.cfg (s.readValue 0 a) (s.readValue 1 b) = .ok r ∧
        s.writeTarget 2 dst < s.cfg.memCapacity ∧ s.writeTarget 2 dst < 2 ^ 63 ∧ s.AdvanceReady 4 ∧
        computeAndStore f a b dst s = .next { storeCell s (s.writeTarget 2 dst) r with ip := s.ipAfter 4 }) ∨
      (∃ g, Raisable s.cfg g ∧ computeAndStore f a b dst s = .next (takeFault g s) ∧
        ¬ (s.ReadReady 0 a ∧ s.ReadReady 1 b ∧ s.WriteReady 2 dst ∧
          (∃ r, f s.cfg (s.readValue 0 a) (s.readValue 1 b) = .ok r) ∧
          s.writeTarget 2 dst < s.cfg.memCapacity ∧ s.AdvanceReady 4)) := by
  unfold computeAndStore
  rcases readOperand_cases s (by omega : 0 < 3) a with ⟨ha, ea⟩ | ⟨ha, g, ea, hg⟩
  swap
  · exact .inr ⟨g, hg, by rw [ea]; rfl, fun h => ha h.1⟩
  rcases readOperand_cases s (by omega : 1 < 3) b with ⟨hb, eb⟩ | ⟨hb, g, eb, hg⟩
  swap
  · exact .inr ⟨g, hg, by rw [ea, eb]; rfl, fun h => hb h.2.1⟩
  rcases writeOperand_cases s (by omega : 2 < 3) dst with ⟨hd, hd0, ed⟩ | ⟨hd, g, ed, hg⟩
  swap
  · exact .inr ⟨g, hg, by rw [ea, eb, ed]; rfl, fun h => hd h.2.2.1⟩
  cases er : f s.cfg (s.readValue 0 a) (s.readValue 1 b) with
  | error g => exact .inr ⟨g, hf _ _ _ er, by rw [ea, eb, ed]; simp only [bind, Except.bind, er]; rfl, by simp⟩
  | ok r =>
    rcases memWrite_cases s (s.targetWord 2 dst) r with ⟨hn, -⟩ | ⟨h0, hc, ew⟩ | ⟨h0, hc, ew⟩
    · omega
    · refine .inr ⟨.capacityExceeded (s.targetWord 2 dst), ⟨⟨h0, hc⟩, by simp⟩, by rw [ea, eb, ed]; simp only [bind, Except.bind, er, ew]; rfl, fun h => ?_⟩
      rw [targetWord_toNat] at hc
      omega
    · rw [targetWord_toNat] at hc ew
      have h63 := (toNat_of_nonneg h0).2
      rw [targetWord_toNat] at h63
      rcases advance_cases (storeCell s (s.writeTarget 2 dst) r) (by omega : 4 < 2 ^ 63) with
        ⟨hadv, ev⟩ | ⟨hadv, hm, ev⟩
      · exact .inl ⟨r, ha, hb, hd, rfl, hc, h63, hadv,
          by rw [ea, eb, ed]; simp only [bind, Except.bind, er, ew, ev]; rfl⟩
      · exact .inr ⟨.arithmeticOverflow, ⟨hm, by simp⟩, by rw [ea, eb, ed]; simp only [bind, Except.bind, er, ew, ev]; rfl,
          fun h => hadv h.2.2.2.2.2⟩

theorem add64_possible (c : Config) (x y : Word) (g : Fault) (h : add64 c x y = .error g) : Raisable c g := by
  rcases narrow_cases c (x.toInt + y.toInt) with ⟨-, e⟩ | ⟨-, hm, e⟩ <;> rw [add64, e] at h <;> simp at h
  subst h
  exact ⟨hm, by simp⟩

theorem mul64_possible (c : Config) (x y : Word) (g : Fault) (h : mul64 c x y = .error g) : Raisable c g := by
  rcases narrow_cases c (x.toInt * y.toInt) with ⟨-, e⟩ | ⟨-, hm, e⟩ <;> rw [mul64, e] at h <;> simp at h
  subst h
  exact ⟨hm, by simp⟩

theorem compareWords_possible (p : Word → Word → Bool) (c : Config) (x y : Word) (g : Fault)
    (h : compareWords p c x y = .error g) : Raisable c g := by
  simp [compareWords] at h

/-- Everything Input can do (42_io.md R150). -/
theorem execInput_cases (dst : WMode) (s : State) :
    (∃ x rest, s.WriteReady 0 dst ∧ s.inq = x :: rest ∧ s.writeTarget 0 dst < s.cfg.memCapacity ∧
        s.writeTarget 0 dst < 2 ^ 63 ∧ s.AdvanceReady 2 ∧
        execInput dst s =
          .next { storeCell s (s.writeTarget 0 dst) x with inq := rest, ip := s.ipAfter 2 }) ∨
      (∃ g, (Raisable s.cfg g ∨ (g = .readOutOfInput ∧ s.inq = [])) ∧ execInput dst s = .next (takeFault g s) ∧
        ¬ (s.WriteReady 0 dst ∧ s.inq ≠ [] ∧ s.writeTarget 0 dst < s.cfg.memCapacity ∧ s.AdvanceReady 2)) := by
  unfold execInput
  rcases writeOperand_cases s (by omega : 0 < 3) dst with ⟨hd, hd0, ed⟩ | ⟨hd, g, ed, hg⟩
  swap
  · exact .inr ⟨g, .inl hg, by rw [ed]; rfl, fun h => hd h.1⟩
  cases hq : s.inq with
  | nil => exact .inr ⟨.readOutOfInput, .inr ⟨rfl, rfl⟩, by rw [ed]; simp [bind, Except.bind, popInput, hq, commit], by simp⟩
  | cons x rest =>
    have ep : popInput s = .ok (x, { s with inq := rest }) := by simp [popInput, hq]
    rcases memWrite_cases { s with inq := rest } (s.targetWord 0 dst) x with ⟨hn, -⟩ | ⟨h0, hc, ew⟩ | ⟨h0, hc, ew⟩
    · omega
    · refine .inr ⟨.capacityExceeded (s.targetWord 0 dst), .inl ⟨⟨h0, hc⟩, by simp⟩, by rw [ed]; simp only [bind, Except.bind, ep, ew]; rfl, fun h => ?_⟩
      rw [targetWord_toNat] at hc
      exact absurd h.2.2.1 (not_lt.mpr hc)
    · rw [targetWord_toNat] at hc ew
      have h63 := (toNat_of_nonneg h0).2
      rw [targetWord_toNat] at h63
      rcases advance_cases (storeCell { s with inq := rest } (s.writeTarget 0 dst) x) (by omega : 2 < 2 ^ 63) with
        ⟨hadv, ev⟩ | ⟨hadv, hm, ev⟩
      · exact .inl ⟨x, rest, hd, rfl, hc, h63, hadv,
          by rw [ed]; simp only [bind, Except.bind, ep, ew, ev]; rfl⟩
      · exact .inr ⟨.arithmeticOverflow, .inl ⟨hm, by simp⟩, by rw [ed]; simp only [bind, Except.bind, ep, ew, ev]; rfl, fun h => hadv h.2.2.2⟩

/-- Everything Output can do (42_io.md R152). -/
theorem execOutput_cases (src : Mode) (s : State) :
    (s.ReadReady 0 src ∧ s.AdvanceReady 2 ∧
        execOutput src s = .next { s with outq := s.outq ++ [s.readValue 0 src], ip := s.ipAfter 2 }) ∨
      (∃ g, Raisable s.cfg g ∧ execOutput src s = .next (takeFault g s) ∧
        ¬ (s.ReadReady 0 src ∧ s.AdvanceReady 2)) := by
  unfold execOutput
  rcases readOperand_cases s (by omega : 0 < 3) src with ⟨ha, ea⟩ | ⟨ha, g, ea, hg⟩
  swap
  · exact .inr ⟨g, hg, by rw [ea]; rfl, fun h => ha h.1⟩
  rcases advance_cases (pushOutput s (s.readValue 0 src)) (by omega : 2 < 2 ^ 63) with ⟨hadv, ev⟩ | ⟨hadv, hm, ev⟩
  · exact .inl ⟨ha, hadv, by rw [ea]; simp only [bind, Except.bind, ev]; rfl⟩
  · exact .inr ⟨.arithmeticOverflow, ⟨hm, by simp⟩, by rw [ea]; simp only [bind, Except.bind, ev]; rfl, fun h => hadv h.2⟩

/-- Everything a jump can do (43_jumps.md R160, R161). -/
theorem jumpWhen_cases (test : Word → Bool) (cond target : Mode) (s : State) :
    (s.ReadReady 0 cond ∧ s.ReadReady 1 target ∧ test (s.readValue 0 cond) = true ∧
        jumpWhen test cond target s = .next { s with ip := s.readValue 1 target }) ∨
      (s.ReadReady 0 cond ∧ s.ReadReady 1 target ∧ test (s.readValue 0 cond) = false ∧ s.AdvanceReady 3 ∧
        jumpWhen test cond target s = .next { s with ip := s.ipAfter 3 }) ∨
      (∃ g, Raisable s.cfg g ∧ jumpWhen test cond target s = .next (takeFault g s) ∧
        ¬ (s.ReadReady 0 cond ∧ s.ReadReady 1 target ∧ (test (s.readValue 0 cond) = true ∨ s.AdvanceReady 3))) := by
  unfold jumpWhen
  rcases readOperand_cases s (by omega : 0 < 3) cond with ⟨ha, ea⟩ | ⟨ha, g, ea, hg⟩
  swap
  · exact .inr (.inr ⟨g, hg, by rw [ea]; rfl, fun h => ha h.1⟩)
  rcases readOperand_cases s (by omega : 1 < 3) target with ⟨hb, eb⟩ | ⟨hb, g, eb, hg⟩
  swap
  · exact .inr (.inr ⟨g, hg, by rw [ea, eb]; rfl, fun h => hb h.2.1⟩)
  cases ht : test (s.readValue 0 cond) with
  | true => exact .inl ⟨ha, hb, rfl, by rw [ea, eb]; simp only [bind, Except.bind, ht]; rfl⟩
  | false =>
    rcases advance_cases s (by omega : 3 < 2 ^ 63) with ⟨hadv, ev⟩ | ⟨hadv, hm, ev⟩
    · exact .inr (.inl ⟨ha, hb, rfl, hadv, by rw [ea, eb]; simp only [bind, Except.bind, ht, ev]; rfl⟩)
    · exact .inr (.inr ⟨.arithmeticOverflow, ⟨hm, by simp⟩, by rw [ea, eb]; simp only [bind, Except.bind, ht, ev]; rfl, fun h => by
        rcases h.2.2 with h | h
        · simp at h
        · exact hadv h⟩)

/-- Everything AdjustRelativeBase can do (45_relative_base.md R180). -/
theorem execAdjustRelativeBase_cases (delta : Mode) (s : State) :
    (s.ReadReady 0 delta ∧ s.cfg.Admits (s.rb.toInt + (s.readValue 0 delta).toInt) ∧ s.AdvanceReady 2 ∧
        execAdjustRelativeBase delta s =
          .next { s with rb := wrap64 (s.rb.toInt + (s.readValue 0 delta).toInt), ip := s.ipAfter 2 }) ∨
      (∃ g, Raisable s.cfg g ∧ execAdjustRelativeBase delta s = .next (takeFault g s) ∧
        ¬ (s.ReadReady 0 delta ∧ s.cfg.Admits (s.rb.toInt + (s.readValue 0 delta).toInt) ∧ s.AdvanceReady 2)) := by
  unfold execAdjustRelativeBase
  rcases readOperand_cases s (by omega : 0 < 3) delta with ⟨ha, ea⟩ | ⟨ha, g, ea, hg⟩
  swap
  · exact .inr ⟨g, hg, by rw [ea]; rfl, fun h => ha h.1⟩
  rcases narrow_cases s.cfg (s.rb.toInt + (s.readValue 0 delta).toInt) with ⟨hn, en⟩ | ⟨hn, hm, en⟩
  swap
  · exact .inr ⟨.arithmeticOverflow, ⟨hm, by simp⟩, by rw [ea]; simp only [bind, Except.bind, add64, en]; rfl, fun h => hn h.2.1⟩
  rcases advance_cases { s with rb := wrap64 (s.rb.toInt + (s.readValue 0 delta).toInt) } (by omega : 2 < 2 ^ 63) with
    ⟨hadv, ev⟩ | ⟨hadv, hm, ev⟩
  · exact .inl ⟨ha, hn, hadv, by rw [ea]; simp only [bind, Except.bind, add64, en, ev]; rfl⟩
  · exact .inr ⟨.arithmeticOverflow, ⟨hm, by simp⟩, by rw [ea]; simp only [bind, Except.bind, add64, en, ev]; rfl, fun h => hadv h.2.2⟩

theorem execHalt_eq (s : State) : execHalt s = .next { s with st := .halted } := rfl

end Sys2Proof.Machine
end

