-- ==== Sys2Proof/Laws/PerInstr.lean ====
section
/-! SUPPORT. Statements made for every instruction, one lemma per constructor of `Instr`. They are about the instruction as
syntax: its encoding and its length. -/

namespace Sys2Proof.Laws

/-- The encoded word decodes to the instruction, with or without the surplus-digit check (spec/30_encoding.md R98). -/
def EncodeDecode.Statement (i : Instr) : Prop := ∀ strict, decode strict (encode i) = .ok i

/-- The encoded word is one of the legal words, none above 22208 (R93). -/
def EncodeLegal.Statement (i : Instr) : Prop := wordLegal (encode i) = true ∧ encodeNat i ≤ 22208

/-- The length counts the instruction word and one word per operand (R81). -/
def LengthCounts.Statement (i : Instr) : Prop :=
  instrLength i = 1 + operandCount i ∧ opcodeRoles (encodeNat i % 100) ≠ none ∧
    (wordRoles (encodeNat i)).length = operandCount i

theorem EncodeDecode.add (a b : Mode) (c : WMode) : EncodeDecode.Statement (.add a b c) := by
  intro strict; cases strict <;> cases a <;> cases b <;> cases c <;> decide
theorem EncodeDecode.multiply (a b : Mode) (c : WMode) : EncodeDecode.Statement (.multiply a b c) := by
  intro strict; cases strict <;> cases a <;> cases b <;> cases c <;> decide
theorem EncodeDecode.input (c : WMode) : EncodeDecode.Statement (.input c) := by
  intro strict; cases strict <;> cases c <;> decide
theorem EncodeDecode.output (a : Mode) : EncodeDecode.Statement (.output a) := by
  intro strict; cases strict <;> cases a <;> decide
theorem EncodeDecode.jumpIfTrue (a b : Mode) : EncodeDecode.Statement (.jumpIfTrue a b) := by
  intro strict; cases strict <;> cases a <;> cases b <;> decide
theorem EncodeDecode.jumpIfFalse (a b : Mode) : EncodeDecode.Statement (.jumpIfFalse a b) := by
  intro strict; cases strict <;> cases a <;> cases b <;> decide
theorem EncodeDecode.lessThan (a b : Mode) (c : WMode) : EncodeDecode.Statement (.lessThan a b c) := by
  intro strict; cases strict <;> cases a <;> cases b <;> cases c <;> decide
theorem EncodeDecode.equals (a b : Mode) (c : WMode) : EncodeDecode.Statement (.equals a b c) := by
  intro strict; cases strict <;> cases a <;> cases b <;> cases c <;> decide
theorem EncodeDecode.adjustRelativeBase (a : Mode) : EncodeDecode.Statement (.adjustRelativeBase a) := by
  intro strict; cases strict <;> cases a <;> decide
theorem EncodeDecode.halt : EncodeDecode.Statement (.halt) := by
  intro strict; cases strict <;> decide

theorem EncodeLegal.add (a b : Mode) (c : WMode) : EncodeLegal.Statement (.add a b c) := by
  unfold EncodeLegal.Statement; cases a <;> cases b <;> cases c <;> decide
theorem EncodeLegal.multiply (a b : Mode) (c : WMode) : EncodeLegal.Statement (.multiply a b c) := by
  unfold EncodeLegal.Statement; cases a <;> cases b <;> cases c <;> decide
theorem EncodeLegal.input (c : WMode) : EncodeLegal.Statement (.input c) := by
  unfold EncodeLegal.Statement; cases c <;> decide
theorem EncodeLegal.output (a : Mode) : EncodeLegal.Statement (.output a) := by
  unfold EncodeLegal.Statement; cases a <;> decide
theorem EncodeLegal.jumpIfTrue (a b : Mode) : EncodeLegal.Statement (.jumpIfTrue a b) := by
  unfold EncodeLegal.Statement; cases a <;> cases b <;> decide
theorem EncodeLegal.jumpIfFalse (a b : Mode) : EncodeLegal.Statement (.jumpIfFalse a b) := by
  unfold EncodeLegal.Statement; cases a <;> cases b <;> decide
theorem EncodeLegal.lessThan (a b : Mode) (c : WMode) : EncodeLegal.Statement (.lessThan a b c) := by
  unfold EncodeLegal.Statement; cases a <;> cases b <;> cases c <;> decide
theorem EncodeLegal.equals (a b : Mode) (c : WMode) : EncodeLegal.Statement (.equals a b c) := by
  unfold EncodeLegal.Statement; cases a <;> cases b <;> cases c <;> decide
theorem EncodeLegal.adjustRelativeBase (a : Mode) : EncodeLegal.Statement (.adjustRelativeBase a) := by
  unfold EncodeLegal.Statement; cases a <;> decide
theorem EncodeLegal.halt : EncodeLegal.Statement (.halt) := by
  unfold EncodeLegal.Statement; decide

theorem LengthCounts.add (a b : Mode) (c : WMode) : LengthCounts.Statement (.add a b c) := by
  unfold LengthCounts.Statement; cases a <;> cases b <;> cases c <;> decide
theorem LengthCounts.multiply (a b : Mode) (c : WMode) : LengthCounts.Statement (.multiply a b c) := by
  unfold LengthCounts.Statement; cases a <;> cases b <;> cases c <;> decide
theorem LengthCounts.input (c : WMode) : LengthCounts.Statement (.input c) := by
  unfold LengthCounts.Statement; cases c <;> decide
theorem LengthCounts.output (a : Mode) : LengthCounts.Statement (.output a) := by
  unfold LengthCounts.Statement; cases a <;> decide
theorem LengthCounts.jumpIfTrue (a b : Mode) : LengthCounts.Statement (.jumpIfTrue a b) := by
  unfold LengthCounts.Statement; cases a <;> cases b <;> decide
theorem LengthCounts.jumpIfFalse (a b : Mode) : LengthCounts.Statement (.jumpIfFalse a b) := by
  unfold LengthCounts.Statement; cases a <;> cases b <;> decide
theorem LengthCounts.lessThan (a b : Mode) (c : WMode) : LengthCounts.Statement (.lessThan a b c) := by
  unfold LengthCounts.Statement; cases a <;> cases b <;> cases c <;> decide
theorem LengthCounts.equals (a b : Mode) (c : WMode) : LengthCounts.Statement (.equals a b c) := by
  unfold LengthCounts.Statement; cases a <;> cases b <;> cases c <;> decide
theorem LengthCounts.adjustRelativeBase (a : Mode) : LengthCounts.Statement (.adjustRelativeBase a) := by
  unfold LengthCounts.Statement; cases a <;> decide
theorem LengthCounts.halt : LengthCounts.Statement (.halt) := by
  unfold LengthCounts.Statement; decide

end Sys2Proof.Laws
end

