-- ==== Sys2Proof/Laws/Step.lean ====
section
/-! SUPPORT. What an instruction and a step can do, said once: the relation `Effect` lists every next state with its guards,
and `exec_effect` and `step_next` are the inversion lemmas later proofs cite. -/

namespace Sys2Proof.Machine

/-- The next states of an instruction: its own effect, or a fault entry. -/
inductive Effect : Instr → State → State → Prop where
  /-- Add, Multiply, LessThan, Equals: the word `v` stored at operand 2 -/
  | store {i : Instr} {s : State} {m : WMode} (v : Word) (operand : writeOperandOf i = some (2, m))
      (ready : s.WriteReady 2 m) (inCapacity : s.writeTarget 2 m < s.cfg.memCapacity)
      (isAddress : s.writeTarget 2 m < 2 ^ 63) (advances : s.AdvanceReady 4) (length : instrLength i = 4) :
      Effect i s { storeCell s (s.writeTarget 2 m) v with ip := s.ipAfter 4 }
  /-- Input: the head of the queue stored at operand 0 -/
  | input {s : State} {m : WMode} (x : Word) (rest : List Word) (ready : s.WriteReady 0 m) (queue : s.inq = x :: rest)
      (inCapacity : s.writeTarget 0 m < s.cfg.memCapacity) (isAddress : s.writeTarget 0 m < 2 ^ 63)
      (advances : s.AdvanceReady 2) :
      Effect (.input m) s { storeCell s (s.writeTarget 0 m) x with inq := rest, ip := s.ipAfter 2 }
  /-- Output: the value appended -/
  | output {s : State} {m : Mode} (ready : s.ReadReady 0 m) (advances : s.AdvanceReady 2) :
      Effect (.output m) s { s with outq := s.outq ++ [s.readValue 0 m], ip := s.ipAfter 2 }
  /-- a taken jump -/
  | jump {i : Instr} {s : State} (target : Word) (taken : TakenJump i s target) : Effect i s { s with ip := target }
  /-- a jump that is not taken -/
  | fallThrough {i : Instr} {s : State} (isJump : ∃ a b, i = .jumpIfTrue a b ∨ i = .jumpIfFalse a b)
      (notTaken : ∀ target, ¬ TakenJump i s target) (advances : s.AdvanceReady 3) :
      Effect i s { s with ip := s.ipAfter 3 }
  /-- AdjustRelativeBase -/
  | adjust {s : State} {m : Mode} (ready : s.ReadReady 0 m) (advances : s.AdvanceReady 2) :
      Effect (.adjustRelativeBase m) s
        { s with rb := wrap64 (s.rb.toInt + (s.readValue 0 m).toInt), ip := s.ipAfter 2 }
  /-- Halt -/
  | halt {s : State} : Effect .halt s { s with st := .halted }
  /-- any instruction: a fault that this core can raise -/
  | fault {i : Instr} {s : State} (f : Fault) (possible : f.Possible s.cfg)
      (emptyQueue : f = .readOutOfInput → s.inq = [] ∧ ∃ m, i = .input m) : Effect i s (takeFault f s)

/-- A fault that is not Input's is an effect of any instruction. -/
theorem Effect.raisable {i : Instr} {s : State} {f : Fault} (h : Raisable s.cfg f) : Effect i s (takeFault f s) :=
  .fault f h.1 fun hf => absurd hf h.2

theorem computeAndStore_effect {i : Instr} {m : WMode} (hi : writeOperandOf i = some (2, m)) (hl : instrLength i = 4)
    (f : Config → Word → Word → Except Fault Word) (a b : Mode) (s : State)
    (hf : ∀ x y g, f s.cfg x y = .error g → Raisable s.cfg g) :
    ∃ t, computeAndStore f a b m s = .next t ∧ Effect i s t := by
  rcases computeAndStore_cases f a b m s hf with ⟨r, -, -, hd, -, hc, h63, hadv, e⟩ | ⟨g, hg, e, -⟩
  · exact ⟨_, e, .store r hi hd hc h63 hadv hl⟩
  · exact ⟨_, e, .raisable hg⟩

theorem readOperand_of_ready {s : State} {k : Nat} (hk : k < 3) {m : Mode} (h : s.ReadReady k m) :
    readOperand s k m = .ok (s.readValue k m) := by
  rcases readOperand_cases s hk m with ⟨-, e⟩ | ⟨hn, -⟩
  · exact e
  · exact absurd h hn

theorem writeOperand_of_ready {s : State} {k : Nat} (hk : k < 3) {m : WMode} (h : s.WriteReady k m) :
    writeOperand s k m = .ok (s.targetWord k m) := by
  rcases writeOperand_cases s hk m with ⟨-, -, e⟩ | ⟨hn, -⟩
  · exact e
  · exact absurd h hn

@[simp] theorem isNonZero_eq_true (w : Word) : isNonZero w = true ↔ w ≠ 0 := by simp [isNonZero]

@[simp] theorem isNonZero_eq_false (w : Word) : isNonZero w = false ↔ w = 0 := by simp [isNonZero]

/-- Every instruction gives a next state from every state (60_exceptions.md R214), and it is one of `Effect`. -/
theorem exec_effect (i : Instr) (s : State) : ∃ t, exec i s = .next t ∧ Effect i s t := by
  cases i with
  | add a b m => exact computeAndStore_effect rfl rfl add64 a b s (add64_possible _)
  | multiply a b m => exact computeAndStore_effect rfl rfl mul64 a b s (mul64_possible _)
  | lessThan a b m => exact computeAndStore_effect rfl rfl _ a b s (compareWords_possible _ _)
  | equals a b m => exact computeAndStore_effect rfl rfl _ a b s (compareWords_possible _ _)
  | input m =>
    rcases execInput_cases m s with ⟨x, rest, hd, hq, hc, h63, hadv, e⟩ | ⟨g, hg, e, -⟩
    · exact ⟨_, e, .input x rest hd hq hc h63 hadv⟩
    · rcases hg with hg | ⟨rfl, hq⟩
      · exact ⟨_, e, .raisable hg⟩
      · exact ⟨_, e, .fault _ trivial fun _ => ⟨hq, m, rfl⟩⟩
  | output m =>
    rcases execOutput_cases m s with ⟨ha, hadv, e⟩ | ⟨g, hg, e, -⟩
    · exact ⟨_, e, .output ha hadv⟩
    · exact ⟨_, e, .raisable hg⟩
  | jumpIfTrue c t =>
    rcases jumpWhen_cases isNonZero c t s with ⟨ha, hb, ht, e⟩ | ⟨ha, hb, ht, hadv, e⟩ | ⟨g, hg, e, -⟩
    · exact ⟨_, e, .jump _ ⟨c, t, _, readOperand_of_ready (by omega) ha, readOperand_of_ready (by omega) hb,
        .inl ⟨rfl, (isNonZero_eq_true _).mp ht⟩⟩⟩
    · refine ⟨_, e, .fallThrough ⟨c, t, .inl rfl⟩ ?_ hadv⟩
      rintro target ⟨c', t', w, hc', -, ⟨hi, hw⟩ | ⟨hi, -⟩⟩
      · obtain ⟨rfl, rfl⟩ := Instr.jumpIfTrue.inj hi
        rw [readOperand_of_ready (by omega) ha] at hc'
        exact hw (Except.ok.inj hc' ▸ (isNonZero_eq_false _).mp ht)
      · cases hi
    · exact ⟨_, e, .raisable hg⟩
  | jumpIfFalse c t =>
    rcases jumpWhen_cases (fun w => !isNonZero w) c t s with ⟨ha, hb, ht, e⟩ | ⟨ha, hb, ht, hadv, e⟩ | ⟨g, hg, e, -⟩
    · exact ⟨_, e, .jump _ ⟨c, t, _, readOperand_of_ready (by omega) ha, readOperand_of_ready (by omega) hb,
        .inr ⟨rfl, by simpa using ht⟩⟩⟩
    · refine ⟨_, e, .fallThrough ⟨c, t, .inr rfl⟩ ?_ hadv⟩
      rintro target ⟨c', t', w, hc', -, ⟨hi, -⟩ | ⟨hi, hw⟩⟩
      · cases hi
      · obtain ⟨rfl, rfl⟩ := Instr.jumpIfFalse.inj hi
        rw [readOperand_of_ready (by omega) ha] at hc'
        obtain rfl := Except.ok.inj hc'
        simp [hw] at ht
    · exact ⟨_, e, .raisable hg⟩
  | adjustRelativeBase m =>
    rcases execAdjustRelativeBase_cases m s with ⟨ha, -, hadv, e⟩ | ⟨g, hg, e, -⟩
    · exact ⟨_, e, .adjust ha hadv⟩
    · exact ⟨_, e, .raisable hg⟩
  | halt => exact ⟨_, rfl, .halt⟩

theorem effect_of_exec {i : Instr} {s t : State} (h : exec i s = .next t) : Effect i s t := by
  obtain ⟨u, e, hu⟩ := exec_effect i s
  rw [e] at h
  exact Host.Outcome.next.inj h ▸ hu

theorem step_running {s : State} (h : s.st = .running) :
    step s = match fetchDecode s with
      | .error f => .next (takeFault f s)
      | .ok i => exec i s := by
  cases hf : fetchDecode s <;> simp [step, stepOnce, h, hf]

theorem step_halted {s : State} (h : s.st = .halted) : step s = .fault .alreadyHalted := by
  simp [step, stepOnce, h]

theorem step_faulted {s : State} {f : Fault} (h : s.st = .faulted f) : step s = .fault f := by
  simp [step, stepOnce, h]

theorem fetchDecode_possible {s : State} {f : Fault} (h : fetchDecode s = .error f) : f.Possible s.cfg := by
  rcases fetchDecode_error h with ⟨h1, rfl⟩ | ⟨-, rfl, h2⟩
  · exact h1
  · exact h2

/-- What a step can do: from a Running core, a fault of the fetch or the decoder is entered, or the decoded instruction
takes its effect (40_sequencer_and_operands.md R110). -/
theorem step_next {s t : State} (h : step s = .next t) :
    s.st = .running ∧
      ((∃ f, fetchDecode s = .error f ∧ f.Possible s.cfg ∧ t = takeFault f s) ∨
        ∃ i, fetchDecode s = .ok i ∧ Effect i s t) := by
  cases hst : s.st with
  | halted => rw [step_halted hst] at h; cases h
  | faulted f => rw [step_faulted hst] at h; cases h
  | running =>
    refine ⟨rfl, ?_⟩
    rw [step_running hst] at h
    cases hf : fetchDecode s with
    | error f =>
      rw [hf] at h
      exact .inl ⟨f, rfl, fetchDecode_possible hf, (Host.Outcome.next.inj h).symm⟩
    | ok i =>
      rw [hf] at h
      exact .inr ⟨i, rfl, effect_of_exec h⟩

/-- A step of a Running core always gives a next state (60_exceptions.md R214). -/
theorem step_total {s : State} (h : s.st = .running) : ∃ t, step s = .next t := by
  rw [step_running h]
  cases fetchDecode s with
  | error f => exact ⟨_, rfl⟩
  | ok i => exact (exec_effect i s).imp fun _ h => h.1

end Sys2Proof.Machine
end

