-- ==== Sys2Proof/Laws/Ports.lean ====
section
/-! SUPPORT. What a step request, a patch and the run controls can do: one lemma for each, cited in place of its
definition. -/

namespace Sys2Proof.Machine

@[simp] theorem afterRequests_zero (s : State) : afterRequests 0 s = s := rfl

@[simp] theorem afterRequests_succ (k : Nat) (s : State) :
    afterRequests (k + 1) s = afterRequests k (request s).1 := rfl

@[simp] theorem nthAnswer_zero (s : State) : nthAnswer 0 s = (request s).2 := rfl

@[simp] theorem nthAnswer_succ (k : Nat) (s : State) : nthAnswer (k + 1) s = nthAnswer k (request s).1 := rfl

/-- What a step request can do (40_sequencer_and_operands.md R128; 60_exceptions.md R208, R209): the answer is a
fault, or `Done` of the instruction that was fetched, which is Halt, an Output with its value appended, or another one. -/
theorem request_cases (s : State) :
    (∃ f t, request s = (t, .fault f) ∧ t.outq = s.outq ∧
        ((s.st = .running ∧ t = takeFault f s) ∨ (s.st = .faulted f ∧ t = s) ∨
          (f = .alreadyHalted ∧ s.st = .halted ∧ t = s))) ∨
      (s.st = .running ∧ fetchDecode s = .ok .halt ∧ request s = ({ s with st := .halted }, .done .halt)) ∨
      (∃ m v t, s.st = .running ∧ fetchDecode s = .ok (.output m) ∧ request s = (t, .done (.output m)) ∧
        t.outq = s.outq ++ [v] ∧ t.st = .running) ∨
      (∃ i t, s.st = .running ∧ fetchDecode s = .ok i ∧ request s = (t, .done i) ∧ i ≠ .halt ∧ (∀ m, i ≠ .output m) ∧
        t.outq = s.outq ∧ t.st = .running) := by
  cases hs : s.st with
  | halted => exact .inl ⟨.alreadyHalted, s, by simp [request, step_halted hs], rfl, .inr (.inr ⟨rfl, rfl, rfl⟩)⟩
  | faulted f => exact .inl ⟨f, s, by simp [request, step_faulted hs], rfl, .inr (.inl ⟨rfl, rfl⟩)⟩
  | running =>
    obtain ⟨t, ht⟩ := step_total hs
    obtain ⟨-, ⟨f, -, -, rfl⟩ | ⟨i, hi, ef⟩⟩ := step_next ht
    · exact .inl ⟨f, takeFault f s, by simp [request, ht], rfl, .inl ⟨rfl, rfl⟩⟩
    · have done : t.st = .running ∨ t.st = .halted → request s = (t, .done i) := by
        rintro (h | h) <;> simp [request, ht, h, hi]
      cases ef with
      | store v op =>
        have hh : i ≠ .halt := by rintro rfl; cases op
        have ho : ∀ m, i ≠ .output m := by rintro m rfl; cases op
        exact .inr (.inr (.inr ⟨_, _, rfl, hi, done (.inl hs), hh, ho, rfl, hs⟩))
      | input => exact .inr (.inr (.inr ⟨_, _, rfl, hi, done (.inl hs), by simp, by simp, rfl, hs⟩))
      | output => exact .inr (.inr (.inl ⟨_, _, _, rfl, hi, done (.inl hs), rfl, hs⟩))
      | jump tg hj =>
        obtain ⟨_, _, _, -, -, ⟨rfl, -⟩ | ⟨rfl, -⟩⟩ := hj <;>
          exact .inr (.inr (.inr ⟨_, _, rfl, hi, done (.inl hs), by simp, by simp, rfl, hs⟩))
      | fallThrough hj =>
        obtain ⟨_, _, rfl | rfl⟩ := hj <;>
          exact .inr (.inr (.inr ⟨_, _, rfl, hi, done (.inl hs), by simp, by simp, rfl, hs⟩))
      | adjust => exact .inr (.inr (.inr ⟨_, _, rfl, hi, done (.inl hs), by simp, by simp, rfl, hs⟩))
      | halt => exact .inr (.inl ⟨rfl, hi, done (.inr rfl)⟩)
      | fault f => exact .inl ⟨f, takeFault f s, by simp [request, ht], rfl, .inl ⟨rfl, rfl⟩⟩

/-- A request answered `Done` of anything but Halt leaves the rest of the run to the remaining requests (R248). -/
theorem run_continues {n : Nat} {s t : State} {i : Instr} (h : request s = (t, .done i)) (hi : i ≠ .halt) :
    run (n + 1) s = run n t := by
  cases i <;> first | exact absurd rfl hi | simp [run, h]

/-- The same for `RunToOut`, which an Output ends too (R249). -/
theorem runToOut_continues {n : Nat} {s t : State} {i : Instr} (h : request s = (t, .done i)) (hi : i ≠ .halt)
    (ho : ∀ m, i ≠ .output m) : runToOut (n + 1) s = runToOut n t := by
  cases i <;> first | exact absurd rfl hi | exact absurd rfl (ho _) | simp [runToOut, h]

/-- What a patch can do (R246): the cell is written and the extent grown, or it is refused and why. -/
theorem patch_cases (a x : Word) (s : State) :
    (s.AcceptsPatch a ∧ patch a x s = .ok (storeCell s a.toNat x)) ∨
      (¬ s.AcceptsPatch a ∧
        ∃ f, patch a x s = .error f ∧ (f = .negativeAddress a ∨ f = .capacityExceeded a)) := by
  rcases memWrite_cases s a x with ⟨h, e⟩ | ⟨h, hc, e⟩ | ⟨h, hc, e⟩
  · exact .inr ⟨fun h' => by have := h'.1; omega, _, e, .inl rfl⟩
  · exact .inr ⟨fun h' => by have := h'.2; omega, _, e, .inr rfl⟩
  · exact .inl ⟨⟨h, hc⟩, e⟩

end Sys2Proof.Machine
end

