-- ==== Sys2Proof/Tests/Slice0.lean ====
section
/-! SUPPORT. Tests of the model: expected results are those of spec/95_test_vectors.md (V-D, V-R, V-F, V-A, V-C, V-J, V-B, V-I,
V-H, V-M) or are read off the encoding tables of 30_encoding.md; and, for every obligation with hypotheses, a witness
that meets them all. -/

namespace Sys2Proof.Tests

open Sys2Proof.Machine

/-- The reset state of a program written in integers, with a relative base and input. -/
def core (program : List Int) (rb : Int := 0) (inq : List Int := []) : State :=
  { State.load Config.standard (program.map wrap64) with rb := wrap64 rb, inq := inq.map wrap64 }

/-- A core whose adder and multiplier raise `ArithmeticOverflow` and whose store holds `capacity` words. -/
def optioned (capacity : Nat) (s : State) : State :=
  { s with cfg := { overflowMode := .fault, strictModeDigits := true, memCapacity := capacity } }

/-- The state after one step. -/
def after (s : State) : Option State :=
  match step s with
  | .next t => some t
  | _ => none

/-- The integer in a cell after one step. -/
def cellAfter (s : State) (a : Nat) : Option Int := (after s).map fun t => (t.mem.read a).toInt

/-- The instruction pointer after one step. -/
def ipAfterStep (s : State) : Option Int := (after s).map fun t => t.ip.toInt

/-- The status after one step. -/
def statusAfter (s : State) : Option Status := (after s).map fun t => t.st

/-- What the decoder reads, none where it rejects. -/
def decoded (v : Int) : Option Instr :=
  match decode true (wrap64 v) with
  | .ok i => some i
  | .error _ => none

/-- The decoder rejects a word by name, with the word as info. -/
def rejected (v : Int) : Bool := decide (decode true (wrap64 v) = .error (.unknownOpcode (wrap64 v)))

/-! ## Well-formedness: an ill-formed word for each check (V-D) -/

theorem test_wf_refuses_negative : wordNonNegative (wrap64 (-99)) = false ∧ wordLegal (wrap64 (-99)) = false := by decide
theorem test_wf_refuses_opcode : wordOpcodeInSet 98 = false ∧ wordLegal 98 = false := by decide
theorem test_wf_refuses_mode_digit : wordModesDefined 4002 = false ∧ wordLegal 4002 = false := by decide
theorem test_wf_refuses_immediate_write : wordNoImmediateWrite 11101 = false ∧ wordLegal 11101 = false := by decide
theorem test_wf_refuses_surplus_digit : wordNoSurplusDigit 1003 = false ∧ wordLegal 1003 = false := by decide
theorem test_wf_accepts : wordLegal 22208 = true ∧ wordLegal 99 = true ∧ wordLegal 203 = true := by decide

/-! ## Decoding: words written from the digit tables R87 to R90 (C B A and the opcode) -/

theorem test_decode_add : decoded 21001 = some (.add .position .immediate .relative) := by decide
theorem test_decode_multiply : decoded 1202 = some (.multiply .relative .immediate .position) := by decide
theorem test_decode_input : decoded 3 = some (.input .position) ∧ decoded 203 = some (.input .relative) := by decide
theorem test_decode_output : decoded 104 = some (.output .immediate) ∧ decoded 204 = some (.output .relative) := by decide
theorem test_decode_jumpIfTrue : decoded 2105 = some (.jumpIfTrue .immediate .relative) := by decide
theorem test_decode_jumpIfFalse : decoded 1006 = some (.jumpIfFalse .position .immediate) := by decide
theorem test_decode_lessThan : decoded 20207 = some (.lessThan .relative .position .relative) := by decide
theorem test_decode_equals : decoded 1108 = some (.equals .immediate .immediate .position) := by decide
theorem test_decode_adjust : decoded 209 = some (.adjustRelativeBase .relative) := by decide
theorem test_decode_halt : decoded 99 = some .halt := by decide
theorem test_decode_rejects :
    ([0, 10, 98, 100, 103, 10001, 11101, 10007, 301, 4002, 30001, 904, 3005, 199, 1099, 10099, 1003, 2203, 1109, 10005,
      100001, 12001, -1, -99, -101, 9223372036854775807].all rejected) = true := by decide
theorem test_encode_field_places :
    encodeNat (.add .immediate .relative .relative) = 22101 ∧ encodeNat (.jumpIfTrue .position .relative) = 2005 := by
  decide
theorem test_decodeTableWord : decodeTableWord 8 104 = some (.output .immediate) ∧ decodeTableWord 8 0 = none := by decide

/-! ## One step each -/

theorem test_add_wraps : cellAfter (core [1101, 9223372036854775807, 1, 5, 99, 0]) 5 = some (-9223372036854775808) := by decide
theorem test_add_own_source : cellAfter (core [1, 0, 0, 0, 99]) 0 = some 2 ∧ ipAfterStep (core [1, 0, 0, 0, 99]) = some 4 := by
  decide
theorem test_multiply_signs : cellAfter (core [1102, -6, 7, 5, 99, 0]) 5 = some (-42) := by decide
theorem test_multiply_wraps :
    cellAfter (core [1102, 3037000500, 3037000500, 5, 99, 0]) 5 = some (-9223372036709301616) := by decide
theorem test_lessThan_signed :
    cellAfter (core [1107, -1, 0, 5, 99, -1]) 5 = some 1 ∧ cellAfter (core [1107, 8, 3, 5, 99, -1]) 5 = some 0 := by decide
theorem test_equals_sign :
    cellAfter (core [1108, 8, 8, 5, 99, -1]) 5 = some 1 ∧ cellAfter (core [1108, 8, -8, 5, 99, -1]) 5 = some 0 := by decide
theorem test_input_relative_grows :
    (after (core [203, 5, 99] 100 [42])).map (fun t => (t.mem.read 105, t.extent, t.inq)) = some (42, 106, []) := by decide
theorem test_input_destination_before_queue : statusAfter (core [3, -1]) = some (.faulted (.negativeAddress (wrap64 (-1)))) := by
  decide
theorem test_output_beyond_extent :
    (after (core [4, 50])).map (fun t => (t.outq, t.extent, t.ip)) = some ([0], 2, 2) := by decide
theorem test_output_relative_negative : statusAfter (core [204, -1]) = some (.faulted (.negativeAddress (wrap64 (-1)))) := by
  decide
theorem test_jumpIfTrue_position : ipAfterStep (core [5, 3, 4, 1, 9]) = some 9 := by decide
theorem test_jumpIfTrue_target_resolved : statusAfter (core [5, 1, -7, 0]) = some (.faulted (.negativeAddress (wrap64 (-7)))) := by
  decide
theorem test_jumpIfFalse_taken : ipAfterStep (core [1106, 0, 4, 99, 99]) = some 4 := by decide
theorem test_jumpIfFalse_not_taken : ipAfterStep (core [1106, 5, 4, 99, 99]) = some 3 := by decide
theorem test_adjust_old_base : (after (core [209, 1] (-1))).map (fun t => t.rb) = some 208 := by decide
theorem test_adjust_wraps :
    (after (core [109, 5] 9223372036854775805)).map (fun t => t.rb.toInt) = some (-9223372036854775806) := by decide
theorem test_halt : (after (core [99])).map (fun t => (t.st, t.ip)) = some (.halted, 0) := by decide
theorem test_three_relative_operands : cellAfter (core [22201, 1, 2, 3, 99, 5, 6] 3) 6 = some 104 := by decide
theorem test_first_bad_operand : statusAfter (core [1, -1, -2, -3]) = some (.faulted (.negativeAddress (wrap64 (-1)))) := by decide
theorem test_decode_before_operands : statusAfter (core [11101, -1, -1, -1]) = some (.faulted (.unknownOpcode 11101)) := by decide
theorem test_reset_runs_into_illegal_zero : statusAfter State.reset = some (.faulted (.unknownOpcode 0)) := by decide
theorem test_after_halt : request { core [99] with st := .halted } = ({ core [99] with st := .halted }, .fault .alreadyHalted) := by
  decide
theorem test_capacity_hides_loaded_words :
    (after (optioned 2 (core [4, 2, 7]))).map (fun t => t.outq) = some [0] ∧ peek 2 (optioned 2 (core [4, 2, 7])) = .ok 0 ∧
      peek 2 (optioned 3 (core [4, 2, 7])) = .ok 7 := by decide
theorem test_write_zero_removes_entry : Memory.write [(3, 7), (5, 1)] 3 0 = [(5, 1)] := by decide
theorem test_placed_word_runs : (after (State.reset.withFetchWord 8 104)).map (fun t => (t.outq, t.ip)) = some ([0], 2) := by decide

/-! ## The host's ports (V-M, P4) -/

theorem test_runWith_stops_at_bad_patch :
    (runWith 3 [(1, 10), (wrap64 (-1), 5), (2, 11)] (core [1, 9, 10, 3, 99])).2 = .err (.negativeAddress (wrap64 (-1))) := by decide
theorem test_runToOut_keeps_going :
    (runToOut 1 (core [104, 10, 104, 20, 99])).2 = .ok (some 10) ∧ (run 3 (core [104, 10, 104, 20, 99])).2 = .ok [10, 20] := by decide

/-! ## Witnesses: a concrete state and operands that meet the hypotheses of each obligation, clause by clause -/

/-- The state after one instruction. -/
def executed (i : Instr) (s : State) : Option State :=
  match exec i s with
  | .next t => some t
  | _ => none

theorem step_of_after {s : State} (p : State → Bool) (h : (after s).any p = true) : ∃ t, step s = .next t ∧ p t = true := by
  unfold after at h
  split at h
  · next t e => exact ⟨t, e, by simpa using h⟩
  · simp at h

theorem exec_of_executed {i : Instr} {s : State} (p : State → Bool) (h : (executed i s).any p = true) :
    ∃ t, exec i s = .next t ∧ p t = true := by
  unfold executed at h
  split at h
  · next t e => exact ⟨t, e, by simpa using h⟩
  · simp at h

/-- A core with `ip` at `a`. -/
def atIp (a : Int) (s : State) : State := { s with ip := wrap64 a }

theorem inv_core_halt : (core [99]).Inv where
  memWf := by decide
  zeroBeyondExtent a h := Memory.read_eq_zero (by
    intro p hp
    have : p = (0, 99) := by simpa [core, State.load, Memory.ofWords] using hp
    simp only [core, State.load, List.map, List.length] at h
    subst this
    show (0 : Nat) ≠ a
    omega)
  extentInRange := by decide
  statusLegal := trivial

theorem witness_DecodeAcceptsExactlyTheLegalWords : wordLegal 22208 = true ∧ wordLegal 22209 = false := by decide
theorem witness_MemReadReturnsStoredOrZero :
    (core [99]).Inv ∧ (wrap64 (-1)).toInt < 0 ∧ (core [99]).extent ≤ (wrap64 1).toNat ∧
      ¬ (core [99]).extent ≤ (wrap64 0).toNat ∧
      (optioned 0 (core [99])).Inv ∧ ¬ (optioned 0 (core [99])).extent ≤ (wrap64 0).toNat ∧
      (optioned 0 (core [99])).cfg.memCapacity ≤ (wrap64 0).toNat :=
  ⟨inv_core_halt, by decide, by decide, by decide,
    ⟨inv_core_halt.memWf, inv_core_halt.zeroBeyondExtent, inv_core_halt.extentInRange, trivial⟩, by decide⟩
theorem witness_MemWriteStoresAndGrows :
    (wrap64 (-1)).toInt < 0 ∧ (optioned 8 (core [99])).cfg.memCapacity ≤ (wrap64 8).toNat ∧ 0 ≤ (wrap64 8).toInt ∧
      0 ≤ (wrap64 7).toInt ∧ (wrap64 7).toNat < (optioned 8 (core [99])).cfg.memCapacity := by decide
theorem witness_CanonicalStoresEqualIffReadsAgree : Memory.wf [(0, 1), (5, 7)] ∧ Memory.wf [(0, 1)] := by decide
theorem witness_StoreIsSeenByTheNextFetch :
    memWrite (core [1]) 7 99 = .ok (storeCell (core [1]) 7 99) ∧ decode true 99 = .ok .halt := by decide
theorem witness_AdderAndMultiplierNarrowTheExactResult :
    InI64 ((wrap64 9223372036854775806).toInt + (1 : Word).toInt) ∧
      ¬ InI64 ((wrap64 9223372036854775807).toInt + (1 : Word).toInt) ∧
      ¬ InI64 ((wrap64 3037000500).toInt * (wrap64 3037000500).toInt) ∧ Config.standard.overflowMode = .wrap ∧
      (optioned 8 (core [])).cfg.overflowMode = .fault := by decide
theorem witness_PositionOperandReadsTheAddressedCell :
    (core [4, -1]).ParamInRange 0 ∧ ((core [4, -1]).paramAt 0).toInt < 0 ∧
      (core [4, 0]).ParamInRange 0 ∧ 0 ≤ ((core [4, 0]).paramAt 0).toInt ∧
      (core [99]).ParamInRange 0 ∧ 0 ≤ ((core [99]).paramAt 0).toInt := by decide
theorem witness_PositionOperandBeyondTheExtent :
    State.reset.ParamInRange 0 ∧ 0 ≤ (State.reset.paramAt 0).toInt ∧ State.reset.extent ≤ (State.reset.paramAt 0).toNat ∧
      State.reset.Inv :=
  ⟨by decide, by decide, by decide, ⟨by decide, fun _ _ => rfl, by decide, trivial⟩⟩
theorem witness_ImmediateOperandIsTheParameter : (core [1101, 5]).ParamInRange 2 := by decide
theorem witness_RelativeOperandReadsFromTheBase :
    (core [204, -5] 5).ParamInRange 0 ∧
      (core [204, -5] 5).cfg.Admits ((core [204, -5] 5).rb.toInt + ((core [204, -5] 5).paramAt 0).toInt) ∧
      0 ≤ (wrap64 ((core [204, -5] 5).rb.toInt + ((core [204, -5] 5).paramAt 0).toInt)).toInt ∧
      (wrap64 ((core [204, -6] 5).rb.toInt + ((core [204, -6] 5).paramAt 0).toInt)).toInt < 0 ∧
      ¬ (optioned 8 (core [204, 9223372036854775807] 1)).cfg.Admits
        ((core [204, 9223372036854775807] 1).rb.toInt + ((core [204, 9223372036854775807] 1).paramAt 0).toInt) := by decide
theorem witness_WriteOperandResolvesToAnAddress :
    (core [203, -5] 5).ParamInRange 0 ∧
      (core [203, -5] 5).cfg.Admits ((core [203, -5] 5).rb.toInt + ((core [203, -5] 5).paramAt 0).toInt) ∧
      (optioned 8 (core [203, 9223372036854775807] 1)).ParamInRange 0 ∧
      ¬ (optioned 8 (core [203, 9223372036854775807] 1)).cfg.Admits
        ((core [203, 9223372036854775807] 1).rb.toInt + ((core [203, 9223372036854775807] 1).paramAt 0).toInt) := by decide
theorem witness_ParameterPositionOutsideTheAddressesFaults :
    ¬ (atIp 9223372036854775807 (core [])).ParamInRange 0 ∧ ¬ (atIp (-2) (core [])).ParamInRange 0 ∧
      ¬ (optioned 8 (atIp 9223372036854775806 (core []))).ParamInRange 1 := by decide
theorem witness_AddStoresTheSum :
    let s := optioned 5 (core [21101, 100, -1, -3] 7)
    s.ReadReady 0 .immediate ∧ s.ReadReady 1 .immediate ∧ s.WriteReady 2 .relative ∧
      s.cfg.Admits ((s.readValue 0 .immediate).toInt + (s.readValue 1 .immediate).toInt) ∧
      s.writeTarget 2 .relative < s.cfg.memCapacity ∧ s.AdvanceReady 4 := by decide
theorem witness_MultiplyStoresTheProduct :
    let s := core [1102, 4294967296, 4294967296, 5]
    s.ReadReady 0 .immediate ∧ s.ReadReady 1 .immediate ∧ s.WriteReady 2 .position ∧
      s.cfg.Admits ((s.readValue 0 .immediate).toInt * (s.readValue 1 .immediate).toInt) ∧
      s.writeTarget 2 .position < s.cfg.memCapacity ∧ s.AdvanceReady 4 := by decide
theorem witness_LessThanStoresTheSignedComparison :
    let s := core [7, 4, 5, 6, -1, 0]
    s.ReadReady 0 .position ∧ s.ReadReady 1 .position ∧ s.WriteReady 2 .position ∧
      s.writeTarget 2 .position < s.cfg.memCapacity ∧ s.AdvanceReady 4 := by decide
theorem witness_EqualsStoresTheEquality :
    let s := core [2208, 0, 0, 6] 3
    s.ReadReady 0 .relative ∧ s.ReadReady 1 .relative ∧ s.WriteReady 2 .position ∧
      s.writeTarget 2 .position < s.cfg.memCapacity ∧ s.AdvanceReady 4 := by decide
theorem witness_InputStoresTheHeadOfTheQueue :
    let s := core [203, 5, 99] 100 [42, 43]
    s.WriteReady 0 .relative ∧ s.inq = [42, 43] ∧ s.writeTarget 0 .relative < s.cfg.memCapacity ∧ s.AdvanceReady 2 := by decide
theorem witness_OutputAppendsTheValue :
    let s := core [4, 50]
    s.ReadReady 0 .position ∧ s.AdvanceReady 2 := by decide
theorem witness_JumpIfTrueFollowsTheCondition :
    let s := core [1105, -1, 4]
    let u := core [1105, 0, 4]
    s.ReadReady 0 .immediate ∧ s.ReadReady 1 .immediate ∧ (s.readValue 0 .immediate).toInt ≠ 0 ∧
      u.ReadReady 0 .immediate ∧ u.ReadReady 1 .immediate ∧ (u.readValue 0 .immediate).toInt = 0 ∧ u.AdvanceReady 3 := by decide
theorem witness_JumpIfFalseFollowsTheCondition :
    let s := core [1006, 4, 0, 99, 0]
    let u := core [1006, 4, 0, 99, 1]
    s.ReadReady 0 .position ∧ s.ReadReady 1 .immediate ∧ (s.readValue 0 .position).toInt = 0 ∧
      u.ReadReady 0 .position ∧ u.ReadReady 1 .immediate ∧ (u.readValue 0 .position).toInt ≠ 0 ∧ u.AdvanceReady 3 := by decide
theorem witness_AdjustRelativeBaseAddsTheDelta :
    let s := core [209, 1] (-1)
    s.ReadReady 0 .relative ∧ s.cfg.Admits (s.rb.toInt + (s.readValue 0 .relative).toInt) ∧ s.AdvanceReady 2 := by decide
theorem witness_StoringInstructionsChangeOnlyTheirCell :
    writeOperandOf (.add .immediate .immediate .position) = some (2, .position) ∧
      writeOperand (core [1101, 1, 1, 7]) 2 .position = .ok 7 ∧
      writeOperand (core [1101, 1, 1, -7]) 2 .position = .error (.negativeAddress (wrap64 (-7))) ∧
      (∃ t, exec (.add .immediate .immediate .position) (core [1101, 1, 1, 7]) = .next t ∧
        decide (t.st = .running ∧ t.mem.read 7 = 2) = true) ∧
      (∃ t, exec (.add .immediate .immediate .position) (core [1101, 1, 1, -7]) = .next t ∧
        decide (t.st ≠ .running) = true) :=
  ⟨by decide, by decide, by decide, exec_of_executed (fun t => decide (t.st = .running ∧ t.mem.read 7 = 2)) (by decide),
    exec_of_executed (fun t => decide (t.st ≠ .running)) (by decide)⟩
theorem witness_OtherInstructionsStoreNothing :
    writeOperandOf (.output .immediate) = none ∧ writeOperandOf .halt = none ∧
      (∃ t, exec (.output .immediate) (core [104, 7]) = .next t ∧ decide (t.outq = [7]) = true) ∧
      (∃ t, exec .halt (core [99]) = .next t ∧ decide (t.st = .halted) = true) :=
  ⟨by decide, by decide, exec_of_executed (fun t => decide (t.outq = [7])) (by decide),
    exec_of_executed (fun t => decide (t.st = .halted)) (by decide)⟩
theorem witness_StepAdvancesByTheLength :
    (core [1105, 1, 9]).st = .running ∧
      (∃ t, exec (.jumpIfTrue .immediate .immediate) (core [1105, 1, 9]) = .next t ∧
        decide (t.st = .running ∧ t.ip = 9) = true) ∧
      (∃ t, exec (.jumpIfTrue .immediate .immediate) (core [1105, 0, 9]) = .next t ∧
        decide (t.st = .running ∧ t.ip = 3) = true) ∧
      (∃ t, exec .halt (core [99]) = .next t ∧ decide (t.st = .halted ∧ t.ip = 0) = true) :=
  ⟨by decide, exec_of_executed (fun t => decide (t.st = .running ∧ t.ip = 9)) (by decide),
    exec_of_executed (fun t => decide (t.st = .running ∧ t.ip = 3)) (by decide),
    exec_of_executed (fun t => decide (t.st = .halted ∧ t.ip = 0)) (by decide)⟩
theorem witness_StepRunsTheDecodedInstruction :
    (core [104, 7]).st = .running ∧ 0 ≤ (core [104, 7]).ip.toInt ∧
      decode (core [104, 7]).cfg.strictModeDigits ((core [104, 7]).wordAt (core [104, 7]).ip.toNat) =
        .ok (.output .immediate) := by decide
theorem witness_FirstFaultInStageOrderIsReported :
    (atIp (-1) (core [99])).st = .running ∧ (atIp (-1) (core [99])).ip.toInt < 0 ∧
      0 ≤ (atIp 1 (core [99])).ip.toInt ∧ decode true ((atIp 1 (core [99])).wordAt 1) = .error (.unknownOpcode 0) ∧
      fetchDecode (core [1, -1, -2, -3]) = .ok (.add .position .position .position) ∧
      firstOperandFault (resolutions (.add .position .position .position) (core [1, -1, -2, -3])) =
        some (.negativeAddress (wrap64 (-1))) := by decide
theorem witness_ReadOutOfInputOnlyFromInputOnEmptyQueue :
    (core [3, 5]).WriteReady 0 .position ∧ (core [3, 5]).inq = [] ∧
      writeOperand (core [3, -1]) 0 .position = .error (.negativeAddress (wrap64 (-1))) ∧
      (∃ t, step (core [3, 5]) = .next t ∧ decide (t.st = .faulted .readOutOfInput) = true) :=
  ⟨by decide, by decide, by decide, step_of_after (fun t => decide (t.st = .faulted .readOutOfInput)) (by decide)⟩
theorem witness_StatusMovesOnlyAsTheTableSays :
    (core [99]).st = .running ∧ (request (core [99])).2 = .done .halt ∧
      (request (core [104, 7])).2 = .done (.output .immediate) ∧ (request (core [3, 5])).2 = .fault .readOutOfInput ∧
      ({ core [99] with st := .halted } : State).st = .halted ∧
      ({ core [99] with st := .faulted .readOutOfInput } : State).st = .faulted .readOutOfInput := by decide
theorem witness_FaultingStepChangesOnlyTheStatus :
    ∃ t, step (core [204, -1]) = .next t ∧ decide (t.st = .faulted (.negativeAddress (wrap64 (-1)))) = true :=
  step_of_after (fun t => decide (t.st = .faulted (.negativeAddress (wrap64 (-1))))) (by decide)
theorem witness_OnlyAdjustRelativeBaseWritesTheBase :
    ∃ t, step (core [109, 19]) = .next t ∧ decide (t.rb ≠ (core [109, 19]).rb) = true :=
  step_of_after (fun t => decide (t.rb ≠ (core [109, 19]).rb)) (by decide)
theorem witness_QueuesMoveOnlyByInputAndOutput :
    (∃ t, step (core [3, 5] 0 [8]) = .next t ∧ decide (t.inq = [] ∧ t.mem.read 5 = 8) = true) ∧
      (∃ t, step (core [104, 7]) = .next t ∧ decide (t.outq = [7]) = true) :=
  ⟨step_of_after (fun t => decide (t.inq = [] ∧ t.mem.read 5 = 8)) (by decide),
    step_of_after (fun t => decide (t.outq = [7])) (by decide)⟩
theorem witness_ExtentOnlyGrowsAndParametersStay :
    ∃ t, step (core [1101, 1, 1, 20]) = .next t ∧ decide (t.extent ≠ (core [1101, 1, 1, 20]).extent ∧ t.extent = 21) = true :=
  step_of_after (fun t => decide (t.extent ≠ (core [1101, 1, 1, 20]).extent ∧ t.extent = 21)) (by decide)
theorem witness_NegativeJumpTargetFaultsAtTheNextFetch :
    (core [1105, 1, -5]).st = .running ∧
      TakenJump (.jumpIfTrue .immediate .immediate) (core [1105, 1, -5]) (wrap64 (-5)) ∧ (wrap64 (-5)).toInt < 0 :=
  ⟨by decide, ⟨.immediate, .immediate, 1, by decide, by decide, .inl ⟨rfl, by decide⟩⟩, by decide⟩
theorem witness_StepKeepsInv : (core [99]).Inv ∧ ∃ t, step (core [99]) = .next t ∧ decide (t.st = .halted) = true :=
  ⟨inv_core_halt, step_of_after (fun t => decide (t.st = .halted)) (by decide)⟩
theorem witness_InvAfterReset : ([99] : List Word).length ≤ 2 ^ 63 := by decide
theorem witness_HostMovesKeepInv :
    (core [99]).Inv ∧ ∀ program, HostMove.load [1, 2] = .load program → program.length ≤ 2 ^ 63 :=
  ⟨inv_core_halt, by rintro _ ⟨⟩; decide⟩
theorem witness_StandardMachineRaisesNoOptionFault :
    (core [1101, 9223372036854775807, 1, 5]).cfg = Config.standard ∧
      ∃ t, step (core [1101, 9223372036854775807, 1, 5]) = .next t ∧ decide (t.st = .running) = true :=
  ⟨by decide, step_of_after (fun t => decide (t.st = .running)) (by decide)⟩
theorem witness_ExtentIsUnobservable : (core [99]).EqButExtent { core [99] with extent := 40 } := rfl
theorem witness_OptionsOnlyAddFaults :
    (optioned 6 (core [1101, 2, 3, 5, 99, 0, 7])).mem.wf ∧
      (optioned 6 (core [1101, 2, 3, 5, 99, 0, 7])).asStandard = { core [1101, 2, 3, 5, 99] with extent := 7 } ∧
      ∃ t, step (optioned 6 (core [1101, 2, 3, 5, 99, 0, 7])) = .next t ∧
        decide (t.st = .running ∧ t.mem.read 5 = 5) = true :=
  ⟨by decide, by decide, step_of_after (fun t => decide (t.st = .running ∧ t.mem.read 5 = 5)) (by decide)⟩
theorem witness_OptionsOnlyAddFaults_unused_capacity :
    (∀ a, 6 ≤ a → (optioned 6 (core [1101, 2, 3, 5])).mem.read a = 0) ∧
    (optioned 6 (core [1101, 2, 3, 5])).cfg.strictModeDigits = true ∧
      ∃ t, step (optioned 6 (core [1101, 2, 3, 5])) = .next t ∧ decide (t.st = .running ∧ t.mem.read 5 = 5) = true :=
  ⟨fun a ha => Memory.read_eq_zero (by
      intro p hp
      have hp' : p ∈ ([(0, 1101), (1, 2), (2, 3), (3, 5)] : Memory) := hp
      simp only [List.mem_cons, List.not_mem_nil, or_false] at hp'
      rcases hp' with rfl | rfl | rfl | rfl <;> exact Nat.ne_of_lt (by omega)),
    by decide, step_of_after (fun t => decide (t.st = .running ∧ t.mem.read 5 = 5)) (by decide)⟩
theorem witness_ResetBuildsTheWholeState : 1 < ([7, 8] : List Word).length ∧ ([7, 8] : List Word).length ≤ 2 := by decide
theorem witness_HostPortsTouchOnlyWhatTheyName :
    (wrap64 (-1)).toInt < 0 ∧ 0 ≤ (wrap64 8).toInt ∧ (optioned 8 (core [99])).cfg.memCapacity ≤ (wrap64 8).toNat ∧
      0 ≤ (wrap64 7).toInt ∧ (wrap64 7).toNat < (optioned 8 (core [99])).cfg.memCapacity := by decide
theorem witness_RunReturnsTheWholeOutput :
    (FirstAnswer endsRun 2 (core [104, 10, 104, 20, 99]) ∧
      nthAnswer 2 (core [104, 10, 104, 20, 99]) = .done .halt ∧
      (run 3 (core [104, 10, 104, 20, 99])).2 = .ok [10, 20]) ∧
    (FirstAnswer endsRun 0 (core [3, 5]) ∧ nthAnswer 0 (core [3, 5]) = .fault .readOutOfInput ∧
      (run 3 (core [3, 5])).2 = .err .readOutOfInput) ∧
    (∀ k < 2, endsRun (nthAnswer k (core [104, 10, 104, 20, 99])) = false) ∧
    ({ core [99] with st := .halted } : State).st = .halted := by decide
theorem witness_RunToOutStopsAfterOneOutput :
    (FirstAnswer endsRunToOut 1 (core [109, 1, 104, 10, 99]) ∧
      nthAnswer 1 (core [109, 1, 104, 10, 99]) = .done (.output .immediate) ∧
      (runToOut 2 (core [109, 1, 104, 10, 99])).2 = .ok (some 10)) ∧
    (FirstAnswer endsRunToOut 0 (core [99]) ∧ nthAnswer 0 (core [99]) = .done .halt ∧
      (runToOut 1 (core [99])).2 = .ok none) ∧
    (FirstAnswer endsRunToOut 0 (core [3, 5]) ∧ nthAnswer 0 (core [3, 5]) = .fault .readOutOfInput ∧
      (runToOut 2 (core [3, 5])).2 = .err .readOutOfInput) ∧
    (∀ k < 1, endsRunToOut (nthAnswer k (core [109, 1, 104, 10, 99])) = false) := by decide
theorem witness_RunWithPatchesThenRuns :
    (∀ p ∈ ([(1, 10), (2, 5), (1, 11)] : List (Word × Word)), (optioned 8 (core [99])).AcceptsPatch p.1) ∧
      (applyPatches [(1, 10), (2, 5), (1, 11)] (optioned 8 (core [99]))).2 = none ∧
      lastPatch [(1, 10), (2, 5), (1, 11)] 1 = some 11 ∧ lastPatch [(1, 10), (2, 5), (1, 11)] 0 = none ∧
      (run 2 (applyPatches [(1, 10), (1, 11)] (core [99])).1).2 = .ok [] ∧
      (run 2 (applyPatches [(0, 100), (0, 98)] (core [99])).1).2 = .err (.unknownOpcode 98) ∧
      (run 0 (applyPatches [(1, 10)] (core [99])).1).2 = .unfinished ∧
      (applyPatches [(1, 10), (wrap64 (-1), 5)] (core [99])).2 = some (.negativeAddress (wrap64 (-1))) ∧
      (applyPatches [(1, 10), (8, 5)] (optioned 8 (core [99]))).2 = some (.capacityExceeded 8) :=
  ⟨by simp [optioned, State.AcceptsPatch], by decide, by decide, by decide, by decide, by decide, by decide, by decide,
    by decide⟩
theorem witness_RunToOutCallsYieldTheOutputsOfRun :
    (run 3 (core [104, 10, 104, 20, 99])).2 = .ok [10, 20] ∧
      (drainOutputs 3 3 (core [104, 10, 104, 20, 99])).1 = [10, 20] ∧
      (drainOutputs 3 3 (core [104, 10, 104, 20, 99])).2.2 = .ok none := by decide
theorem witness_PlacedWordIsRunByTheNextStep :
    State.reset.st = .running ∧ 0 ≤ State.reset.ip.toInt ∧ State.reset.cfg.strictModeDigits = true ∧
      decodeTableWord 8 104 = some (.output .immediate) ∧ State.reset.ip.toNat < State.reset.cfg.memCapacity ∧
      (optioned 0 State.reset).st = .running ∧
      (optioned 0 State.reset).cfg.memCapacity ≤ (optioned 0 State.reset).ip.toNat := by decide
theorem witness_CapacityBoundsWritesAndReads :
    0 ≤ (wrap64 8).toInt ∧ (optioned 8 (core [99])).cfg.memCapacity ≤ (wrap64 8).toNat ∧
      (core [99]).cfg.memCapacity = Config.standard.memCapacity := by decide

end Sys2Proof.Tests
end

section
/-! The read operands in Position and Immediate mode (spec/40_sequencer_and_operands.md rules R116, R117) and Halt (R127). -/

namespace Sys2Proof.Machine

/-- When the parameter's position is a word address, a read operand is `ReadOperand` of the mode and the parameter (R114,
R122): the fetch of the parameter drops out. -/
theorem readOperand_inRange {s : State} {k : Nat} (hk : k < 3) (h : s.ParamInRange k) (m : Mode) :
    readOperand s k m = readByMode s (s.paramAt k) m := by
  rw [readOperand, readParam_inRange hk h]

/-- `ReadOperand` in Position mode is a memory read (R116). -/
@[simp] theorem readByMode_position (s : State) (p : Word) : readByMode s p .position = memRead s p := rfl

/-- `ReadOperand` in Immediate mode reads no memory (R117). -/
@[simp] theorem readByMode_immediate (s : State) (p : Word) : readByMode s p .immediate = .ok p := rfl

theorem exec_halt (s : State) : exec .halt s = execHalt s := rfl

/-- Settles O11: a Position operand is a memory read at the parameter, and reads beyond the extent give 0 under the
invariant. -/
theorem positionOperandReadsTheAddressedCell : Obligations.PositionOperandReadsTheAddressedCell := by
  intro s k hk hr
  rw [readOperand_inRange hk hr, readByMode_position]
  refine ⟨memRead_neg, memRead_nonneg, fun hinv hnonneg hbeyond => ?_⟩
  rw [memRead_nonneg hnonneg, hinv.wordAt_beyond_extent hbeyond]

/-- Settles O12: with its parameter in range, an Immediate operand is that parameter. -/
theorem immediateOperandIsTheParameter : Obligations.ImmediateOperandIsTheParameter := by
  intro s k hk hr
  rw [readOperand_inRange hk hr, readByMode_immediate]

/-- Settles O25: Halt commits the state it began in with `st` Halted. -/
theorem haltKeepsTheInstructionPointer : Obligations.HaltKeepsTheInstructionPointer := by
  intro s
  rw [exec_halt, execHalt_eq]

end Sys2Proof.Machine
end

section
/-! The decoder and the encoder (spec/30_encoding.md rules R82 to R98). One lemma says when a word decodes to an instruction
(`decode_ok_iff`): its digits are those of the encoding, and none stands above them where the check is on. -/

namespace Sys2Proof

/-! The mode digits (R85). -/

theorem readModeOf_eq_some {d : Nat} {a : Mode} : readModeOf d = some a ↔ d = readDigit a := by
  unfold readModeOf
  cases a <;> split <;> simp_all [readDigit]

theorem writeModeOf_eq_some {d : Nat} {a : WMode} : writeModeOf d = some a ↔ d = writeDigit a := by
  unfold writeModeOf
  cases a <;> split <;> simp_all [writeDigit]

theorem readDigit_le (a : Mode) : readDigit a ≤ 2 := by cases a <;> decide

theorem writeDigit_le (a : WMode) : writeDigit a ≤ 2 := by cases a <;> decide

theorem exists_readDigit {d : Nat} (h : d ≤ 2) : ∃ a, d = readDigit a := by
  interval_cases d
  · exact ⟨.position, rfl⟩
  · exact ⟨.immediate, rfl⟩
  · exact ⟨.relative, rfl⟩

theorem exists_writeDigit {d : Nat} (h : d ≤ 2) (h1 : d ≠ 1) : ∃ a, d = writeDigit a := by
  interval_cases d
  · exact ⟨.position, rfl⟩
  · exact absurd rfl h1
  · exact ⟨.relative, rfl⟩

/-! The formats (R87 to R90): the mode field's digits are those of the modes. -/

section Formats

variable {strict : Bool} {m : Nat} {i : Instr}

theorem decodeF3_eq_some {mk : Mode → Mode → WMode → Instr} :
    decodeF3 strict m mk = some i ↔ surplusOk strict m 3 = true ∧
      ∃ a b c, i = mk a b c ∧ m % 10 = readDigit a ∧ m / 10 % 10 = readDigit b ∧ m / 100 % 10 = writeDigit c := by
  simp only [decodeF3, decodeReads, digit, Option.ite_none_right_eq_some, Nat.pow_zero, Nat.div_one, Nat.pow_one,
    Nat.reducePow]
  refine and_congr_right fun _ => ⟨fun h => ?_, ?_⟩
  · split at h
    · next a b ha hb =>
      obtain ⟨c, hc, rfl⟩ := Option.map_eq_some_iff.mp h
      exact ⟨a, b, c, rfl, readModeOf_eq_some.mp ha, readModeOf_eq_some.mp hb, writeModeOf_eq_some.mp hc⟩
    · simp at h
  · rintro ⟨a, b, c, rfl, ha, hb, hc⟩
    rw [readModeOf_eq_some.mpr ha, readModeOf_eq_some.mpr hb, writeModeOf_eq_some.mpr hc]
    rfl

theorem decodeF2_eq_some {mk : Mode → Mode → Instr} :
    decodeF2 strict m mk = some i ↔ surplusOk strict m 2 = true ∧
      ∃ a b, i = mk a b ∧ m % 10 = readDigit a ∧ m / 10 % 10 = readDigit b := by
  simp only [decodeF2, decodeReads, digit, Option.ite_none_right_eq_some, Nat.pow_zero, Nat.div_one, Nat.pow_one]
  refine and_congr_right fun _ => ⟨fun h => ?_, ?_⟩
  · split at h
    · next a b ha hb =>
      exact ⟨a, b, (Option.some.inj h).symm, readModeOf_eq_some.mp ha, readModeOf_eq_some.mp hb⟩
    · simp at h
  · rintro ⟨a, b, rfl, ha, hb⟩
    rw [readModeOf_eq_some.mpr ha, readModeOf_eq_some.mpr hb]

theorem decodeF1R_eq_some {mk : Mode → Instr} :
    decodeF1R strict m mk = some i ↔ surplusOk strict m 1 = true ∧ ∃ a, i = mk a ∧ m % 10 = readDigit a := by
  simp only [decodeF1R, digit, Option.ite_none_right_eq_some, Option.map_eq_some_iff, readModeOf_eq_some, Nat.pow_zero,
    Nat.div_one, and_comm, eq_comm (a := i)]

theorem decodeF1W_eq_some {mk : WMode → Instr} :
    decodeF1W strict m mk = some i ↔ surplusOk strict m 1 = true ∧ ∃ a, i = mk a ∧ m % 10 = writeDigit a := by
  simp only [decodeF1W, digit, Option.ite_none_right_eq_some, Option.map_eq_some_iff, writeModeOf_eq_some, Nat.pow_zero,
    Nat.div_one, and_comm, eq_comm (a := i)]

theorem decodeF0_eq_some {j : Instr} :
    decodeF0 strict m j = some i ↔ surplusOk strict m 0 = true ∧ i = j := by
  simp only [decodeF0, Option.ite_none_right_eq_some, Option.some.injEq, eq_comm (a := i)]

end Formats

/-- The opcode of an instruction (R91). -/
def opcodeOf : Instr → Nat
  | .add _ _ _ => 1
  | .multiply _ _ _ => 2
  | .input _ => 3
  | .output _ => 4
  | .jumpIfTrue _ _ => 5
  | .jumpIfFalse _ _ => 6
  | .lessThan _ _ _ => 7
  | .equals _ _ _ => 8
  | .adjustRelativeBase _ => 9
  | .halt => 99

theorem encodeNat_mod_hundred (i : Instr) : encodeNat i % 100 = opcodeOf i := by
  cases i <;> simp only [encodeNat, opcodeOf] <;> omega

/-- The opcode map (R91) in both directions: the fields decode to an instruction exactly when its surplus-digit check
passes and the low digits are those of its encoding. -/
theorem decodeFields_eq_some {strict : Bool} {op m : Nat} (hop : op < 100) {i : Instr} :
    decodeFields strict op m = some i ↔
      surplusOk strict m (operandCount i) = true ∧ op + 100 * (m % 10 ^ operandCount i) = encodeNat i := by
  constructor
  · intro h
    unfold decodeFields at h
    split at h
    case h_11 => simp at h
    case h_10 =>
      obtain ⟨hs, rfl⟩ := decodeF0_eq_some.mp h
      exact ⟨hs, by simp [operandCount, encodeNat, Nat.mod_one]⟩
    case h_3 =>
      obtain ⟨hs, a, rfl, ha⟩ := decodeF1W_eq_some.mp h
      exact ⟨hs, by simp only [operandCount, encodeNat]; omega⟩
    case h_4 | h_9 =>
      obtain ⟨hs, a, rfl, ha⟩ := decodeF1R_eq_some.mp h
      exact ⟨hs, by simp only [operandCount, encodeNat]; omega⟩
    case h_5 | h_6 =>
      obtain ⟨hs, a, b, rfl, ha, hb⟩ := decodeF2_eq_some.mp h
      exact ⟨hs, by simp only [operandCount, encodeNat]; omega⟩
    all_goals
      obtain ⟨hs, a, b, c, rfl, ha, hb, hc⟩ := decodeF3_eq_some.mp h
      exact ⟨hs, by simp only [operandCount, encodeNat]; omega⟩
  · rintro ⟨hs, he⟩
    obtain rfl : op = opcodeOf i := by rw [← encodeNat_mod_hundred]; omega
    cases i with
    | add a b c | multiply a b c | lessThan a b c | equals a b c =>
      have ha := readDigit_le a
      have hb := readDigit_le b
      have hc := writeDigit_le c
      simp only [operandCount, encodeNat, opcodeOf] at he hs
      exact decodeF3_eq_some.mpr ⟨hs, a, b, c, rfl, by omega, by omega, by omega⟩
    | jumpIfTrue a b | jumpIfFalse a b =>
      have ha := readDigit_le a
      have hb := readDigit_le b
      simp only [operandCount, encodeNat, opcodeOf] at he hs
      exact decodeF2_eq_some.mpr ⟨hs, a, b, rfl, by omega, by omega⟩
    | input a =>
      simp only [operandCount, encodeNat, opcodeOf] at he hs
      exact decodeF1W_eq_some.mpr ⟨hs, a, rfl, by omega⟩
    | output a | adjustRelativeBase a =>
      simp only [operandCount, encodeNat, opcodeOf] at he hs
      exact decodeF1R_eq_some.mpr ⟨hs, a, rfl, by omega⟩
    | halt => exact decodeF0_eq_some.mpr ⟨hs, rfl⟩

/-- `Decode(v)` in both directions (R98): the word is not negative, its low digits are those of the encoding, and the
surplus-digit check passes. -/
theorem decode_ok_iff {strict : Bool} {v : Word} {i : Instr} :
    decode strict v = .ok i ↔ 0 ≤ v.toInt ∧ v.toNat % 10 ^ (operandCount i + 2) = encodeNat i ∧
      surplusOk strict (v.toNat / 100) (operandCount i) = true := by
  have digits : v.toNat % 10 ^ (operandCount i + 2) =
      v.toNat % 100 + 100 * (v.toNat / 100 % 10 ^ operandCount i) := by
    rw [Nat.add_comm, Nat.pow_add, Nat.mod_mul]
  have fields := decodeFields_eq_some (strict := strict) (m := v.toNat / 100) (Nat.mod_lt v.toNat (by omega : 0 < 100))
    (i := i)
  rw [digits, and_comm (b := surplusOk _ _ _ = true), ← fields]
  unfold decode
  by_cases hv : v.toInt < 0
  · simp [hv]
  · rw [if_neg hv, and_iff_right (not_lt.mp hv)]
    cases decodeFields strict (v.toNat % 100) (v.toNat / 100) <;> simp

/-- The encoder's law of the model, for every instruction at once (R98). -/
theorem decode_encode (strict : Bool) (i : Instr) : decode strict (encode i) = .ok i := by
  cases i with
  | add a b c => exact Laws.EncodeDecode.add a b c strict
  | multiply a b c => exact Laws.EncodeDecode.multiply a b c strict
  | input c => exact Laws.EncodeDecode.input c strict
  | output a => exact Laws.EncodeDecode.output a strict
  | jumpIfTrue a b => exact Laws.EncodeDecode.jumpIfTrue a b strict
  | jumpIfFalse a b => exact Laws.EncodeDecode.jumpIfFalse a b strict
  | lessThan a b c => exact Laws.EncodeDecode.lessThan a b c strict
  | equals a b c => exact Laws.EncodeDecode.equals a b c strict
  | adjustRelativeBase a => exact Laws.EncodeDecode.adjustRelativeBase a strict
  | halt => exact Laws.EncodeDecode.halt strict

/-- The encoded word is legal (R93) and at most 22208, for every instruction at once. -/
theorem encode_legal (i : Instr) : wordLegal (encode i) = true ∧ encodeNat i ≤ 22208 := by
  cases i with
  | add a b c => exact Laws.EncodeLegal.add a b c
  | multiply a b c => exact Laws.EncodeLegal.multiply a b c
  | input c => exact Laws.EncodeLegal.input c
  | output a => exact Laws.EncodeLegal.output a
  | jumpIfTrue a b => exact Laws.EncodeLegal.jumpIfTrue a b
  | jumpIfFalse a b => exact Laws.EncodeLegal.jumpIfFalse a b
  | lessThan a b c => exact Laws.EncodeLegal.lessThan a b c
  | equals a b c => exact Laws.EncodeLegal.equals a b c
  | adjustRelativeBase a => exact Laws.EncodeLegal.adjustRelativeBase a
  | halt => exact Laws.EncodeLegal.halt

theorem encode_toNat (i : Instr) : (encode i).toNat = encodeNat i := by
  have := (encode_legal i).2
  rw [encode, BitVec.toNat_ofNat, Nat.mod_eq_of_lt (by omega)]

/-- Settles O1: with the surplus-digit check on, the word has no digit above its mode digits, so that its low digits are
the word itself. -/
theorem decodesToExactlyTheEncodedWord : Obligations.DecodesToExactlyTheEncodedWord := by
  intro i v
  refine ⟨fun h => BitVec.eq_of_toNat_eq ?_, fun h => h ▸ decode_encode true i⟩
  obtain ⟨-, hdigits, hsurplus⟩ := decode_ok_iff.mp h
  have hm : v.toNat / 100 < 10 ^ operandCount i := by simpa [surplusOk] using hsurplus
  have hv : v.toNat < 10 ^ (operandCount i + 2) := by
    rw [Nat.pow_add]
    omega
  rw [encode_toNat, ← hdigits, Nat.mod_eq_of_lt hv]

/-- Settles O4: without the check, the condition on the digits above the mode digits drops out of `decode_ok_iff`. -/
theorem lenientDecodeIgnoresSurplusDigits : Obligations.LenientDecodeIgnoresSurplusDigits := by
  intro i v
  simp [decode_ok_iff, surplusOk]

/-- Settles O5: by evaluation of the decoder on the eleven words. -/
theorem sampleWordsDecode : Obligations.SampleWordsDecode := by
  unfold Obligations.SampleWordsDecode
  decide

end Sys2Proof
end

section
/-! The legal words (spec/30_encoding.md rules R93 to R96) against the decoder, which does not use R93's checks. -/

namespace Sys2Proof

/-- The opcodes of each list of operand roles (R81, R91). -/
theorem opcodeRoles_cases {op : Nat} {roles : List Role} (h : opcodeRoles op = some roles) :
    ((op = 1 ∨ op = 2 ∨ op = 7 ∨ op = 8) ∧ roles = [.read, .read, .write]) ∨
      ((op = 5 ∨ op = 6) ∧ roles = [.read, .read]) ∨ (op = 3 ∧ roles = [.write]) ∨
      ((op = 4 ∨ op = 9) ∧ roles = [.read]) ∨ (op = 99 ∧ roles = []) := by
  unfold opcodeRoles at h
  split_ifs at h <;> simp_all

/-- R93's checks as one proposition, over the roles of the word's opcode. -/
theorem wordLegal_iff {v : Word} :
    wordLegal v = true ↔ 0 ≤ v.toInt ∧ ∃ roles, opcodeRoles (v.toNat % 100) = some roles ∧
      (∀ k < roles.length, modeDigit v.toNat k ≤ 2) ∧
      (∀ rk ∈ roles.zipIdx, rk.1 = .write → modeDigit v.toNat rk.2 ≠ 1) ∧ v.toNat / 100 < 10 ^ roles.length := by
  simp only [wordLegal, wordNonNegative, wordOpcodeInSet, wordModesDefined, wordNoImmediateWrite, wordNoSurplusDigit,
    wordRoles, Bool.and_eq_true, decide_eq_true_eq, List.all_eq_true, List.mem_range, not_and, and_assoc]
  refine and_congr_right fun _ => ?_
  obtain ⟨roles, hr⟩ : ∃ roles, opcodeRoles (v.toNat % 100) = roles := ⟨_, rfl⟩
  cases roles <;> simp [hr]

/-- A legal word is its opcode and mode digits, so some instruction encodes to it. -/
theorem exists_encodeNat_of_wordLegal {v : Word} (h : wordLegal v = true) : ∃ i, v.toNat = encodeNat i := by
  obtain ⟨-, roles, hroles, hmodes, hwrite, hsurplus⟩ := wordLegal_iff.mp h
  rcases opcodeRoles_cases hroles with ⟨hop, rfl⟩ | ⟨hop, rfl⟩ | ⟨hop, rfl⟩ | ⟨hop, rfl⟩ | ⟨hop, rfl⟩
  · obtain ⟨a, ha⟩ := exists_readDigit (hmodes 0 (by decide))
    obtain ⟨b, hb⟩ := exists_readDigit (hmodes 1 (by decide))
    obtain ⟨c, hc⟩ := exists_writeDigit (hmodes 2 (by decide)) (hwrite (.write, 2) (by decide) rfl)
    simp only [modeDigit, List.length_cons, List.length_nil] at ha hb hc hsurplus
    rcases hop with hop | hop | hop | hop
    · exact ⟨.add a b c, by simp only [encodeNat]; omega⟩
    · exact ⟨.multiply a b c, by simp only [encodeNat]; omega⟩
    · exact ⟨.lessThan a b c, by simp only [encodeNat]; omega⟩
    · exact ⟨.equals a b c, by simp only [encodeNat]; omega⟩
  · obtain ⟨a, ha⟩ := exists_readDigit (hmodes 0 (by decide))
    obtain ⟨b, hb⟩ := exists_readDigit (hmodes 1 (by decide))
    simp only [modeDigit, List.length_cons, List.length_nil] at ha hb hsurplus
    rcases hop with hop | hop
    · exact ⟨.jumpIfTrue a b, by simp only [encodeNat]; omega⟩
    · exact ⟨.jumpIfFalse a b, by simp only [encodeNat]; omega⟩
  · obtain ⟨c, hc⟩ := exists_writeDigit (hmodes 0 (by decide)) (hwrite (.write, 0) (by decide) rfl)
    simp only [modeDigit, List.length_cons, List.length_nil] at hc hsurplus
    exact ⟨.input c, by simp only [encodeNat]; omega⟩
  · obtain ⟨a, ha⟩ := exists_readDigit (hmodes 0 (by decide))
    simp only [modeDigit, List.length_cons, List.length_nil] at ha hsurplus
    rcases hop with hop | hop
    · exact ⟨.output a, by simp only [encodeNat]; omega⟩
    · exact ⟨.adjustRelativeBase a, by simp only [encodeNat]; omega⟩
  · simp only [List.length_nil] at hsurplus
    exact ⟨.halt, by simp only [encodeNat]; omega⟩

/-- The legal words are the encodings. -/
theorem wordLegal_iff_exists_encode {v : Word} : wordLegal v = true ↔ ∃ i, encode i = v := by
  constructor
  · intro h
    obtain ⟨i, hi⟩ := exists_encodeNat_of_wordLegal h
    exact ⟨i, BitVec.eq_of_toNat_eq (by rw [encode_toNat, hi])⟩
  · rintro ⟨i, rfl⟩
    exact (encode_legal i).1

/-- Settles O2: the words that decode are the encodings (O1), and so are the legal words. -/
theorem decodeAcceptsExactlyTheLegalWords : Obligations.DecodeAcceptsExactlyTheLegalWords := by
  intro v
  constructor
  · intro h
    obtain ⟨i, rfl⟩ := wordLegal_iff_exists_encode.mp h
    exact ⟨i, decode_encode true i⟩
  · intro h
    cases hd : decode true v with
    | error e => rw [Machine.decode_error hd]
    | ok i =>
      obtain rfl := (decodesToExactlyTheEncodedWord i v).mp hd
      rw [(encode_legal i).1] at h
      cases h

/-! The 99 words (R96): 4 opcodes of 18, 2 of 9, one of 2, 2 of 3, and Halt. -/

def allModes : List Mode := [.position, .immediate, .relative]

def allWModes : List WMode := [.position, .relative]

/-- Every instruction, by format. -/
def allInstrs : List Instr :=
  List.flatten
    [allModes.flatMap fun a => allModes.flatMap fun b => allWModes.flatMap fun c =>
        [Instr.add a b c, Instr.multiply a b c, Instr.lessThan a b c, Instr.equals a b c],
      allModes.flatMap fun a => allModes.flatMap fun b => [Instr.jumpIfTrue a b, Instr.jumpIfFalse a b],
      allWModes.map Instr.input,
      allModes.flatMap fun a => [Instr.output a, Instr.adjustRelativeBase a],
      [Instr.halt]]

theorem mem_allModes (a : Mode) : a ∈ allModes := by cases a <;> decide

theorem mem_allWModes (a : WMode) : a ∈ allWModes := by cases a <;> decide

theorem mem_allInstrs (i : Instr) : i ∈ allInstrs := by
  cases i <;> simp [allInstrs, mem_allModes, mem_allWModes]

theorem encode_injective : Function.Injective encode := fun i j h =>
  Except.ok.inj ((decode_encode true i).symm.trans (h ▸ decode_encode true j))

theorem one_le_encodeNat (i : Instr) : 1 ≤ encodeNat i := by
  cases i <;> simp [encodeNat]

/-- Settles O3: the list of all encodings. -/
theorem ninetyNineLegalWords : Obligations.NinetyNineLegalWords := by
  have legal : ∀ v, v ∈ allInstrs.map encode ↔ wordLegal v = true := fun v => by
    simp [wordLegal_iff_exists_encode, mem_allInstrs]
  have length : (allInstrs.map encode).length = 99 := by rw [List.length_map]; rfl
  have nodup : (allInstrs.map encode).Nodup := List.Nodup.map encode_injective (by decide)
  refine ⟨allInstrs.map encode, length, nodup, legal, fun v hv => ?_,
    (legal 1).mpr (by decide), (legal 22208).mpr (by decide)⟩
  obtain ⟨i, -, rfl⟩ := List.mem_map.mp hv
  rw [encode_toNat]
  exact ⟨one_le_encodeNat i, (encode_legal i).2⟩

end Sys2Proof
end

section
/-! The memory controller, the load and the host's ports (spec/20_memory.md rules R52 to R56; 70_reset_and_hazards.md rules
R240 to R252). -/

namespace Sys2Proof.Machine

/-! The canonical store. -/

/-- In a canonical store an entry is listed exactly where a read gives its nonzero word. -/
theorem Memory.mem_iff_read {m : Memory} (h : m.wf) {p : Nat × Word} : p ∈ m ↔ m.read p.1 = p.2 ∧ p.2 ≠ 0 := by
  refine ⟨fun hp => ⟨Memory.read_of_mem h.1 hp, h.2 p hp⟩, fun ⟨hr, h0⟩ => ?_⟩
  by_contra hp
  refine h0 (hr ▸ Memory.read_eq_zero fun q hq hqp => hp ?_)
  have hw : q.2 = p.2 := by rw [← hr, ← hqp, Memory.read_of_mem h.1 hq]
  rwa [← Prod.ext hqp hw]

theorem Memory.nodup {m : Memory} (h : m.wf) : m.Nodup :=
  h.1.imp fun {p q} (hlt : p.1 < q.1) (he : p = q) => absurd (he ▸ hlt) (lt_irrefl _)

/-- Canonical stores that read alike have the same entries, in the same order. -/
theorem Memory.ext_read {m n : Memory} (hm : m.wf) (hn : n.wf) (h : ∀ a, m.read a = n.read a) : m = n := by
  have perm : m.Perm n := (List.perm_ext_iff_of_nodup (Memory.nodup hm) (Memory.nodup hn)).mpr fun p => by
    rw [Memory.mem_iff_read hm, Memory.mem_iff_read hn, h]
  exact perm.eq_of_pairwise (fun p q _ _ hpq hqp => absurd hpq (lt_asymm hqp)) hm.1 hn.1

/-- Settles O8: the entries of a canonical store are what its reads give. -/
theorem canonicalStoresEqualIffReadsAgree : Obligations.CanonicalStoresEqualIffReadsAgree :=
  fun _ _ hm hn => ⟨fun h _ => h ▸ rfl, Memory.ext_read hm hn⟩

/-! Reads and writes. -/

theorem memRead_storeCell_same {s : State} {a : Word} (v : Word) (h : s.AcceptsPatch a) :
    memRead (storeCell s a.toNat v) a = .ok v := by
  rw [memRead_nonneg h.1, wordAt_storeCell v h.2, if_pos rfl]

theorem memRead_storeCell_other {s : State} {a b : Word} (v : Word) (h : s.AcceptsPatch a) (hb : b ≠ a) :
    memRead (storeCell s a.toNat v) b = memRead s b := by
  have hne : b.toNat ≠ a.toNat := fun e => hb (BitVec.eq_of_toNat_eq e)
  simp only [memRead, wordAt_storeCell v h.2, if_neg hne]

theorem memWrite_neg {s : State} {a : Word} (v : Word) (h : a.toInt < 0) :
    memWrite s a v = .error (.negativeAddress a) := by
  rw [memWrite, if_pos h]

theorem memWrite_above {s : State} {a : Word} (v : Word) (h : 0 ≤ a.toInt) (hc : s.cfg.memCapacity ≤ a.toNat) :
    memWrite s a v = .error (.capacityExceeded a) := by
  rw [memWrite, if_neg (not_lt.mpr h), if_pos hc]

theorem memWrite_accepted {s : State} {a : Word} (v : Word) (h : s.AcceptsPatch a) :
    memWrite s a v = .ok (storeCell s a.toNat v) := by
  rw [memWrite, if_neg (not_lt.mpr h.1), if_neg (not_le.mpr h.2)]

/-- With the default capacity every address is below it. -/
theorem acceptsPatch_of_standardCapacity {s : State} {a : Word} (h : 0 ≤ a.toInt)
    (hc : s.cfg.memCapacity = Config.standard.memCapacity) : s.AcceptsPatch a :=
  ⟨h, by rw [hc]; exact (toNat_of_nonneg h).2⟩

/-- Settles O6: under the invariant the comparison with the extent, which the model's read leaves out, changes nothing. -/
theorem memReadReturnsStoredOrZero : Obligations.MemReadReturnsStoredOrZero := by
  intro s addr hinv
  refine ⟨?_, rfl⟩
  split_ifs with hneg hext hcap
  · exact memRead_neg hneg
  · rw [memRead_nonneg (not_lt.mp hneg), hinv.wordAt_beyond_extent hext]
  · rw [memRead_nonneg (not_lt.mp hneg), wordAt_above hcap]
  · rw [memRead_nonneg (not_lt.mp hneg), wordAt_below (not_le.mp hcap)]

/-- Settles O7: the accepted write is `storeCell`, whose reads are known. -/
theorem memWriteStoresAndGrows : Obligations.MemWriteStoresAndGrows := by
  intro s addr v
  refine ⟨memWrite_neg v, memWrite_above v, fun h0 hc => ?_⟩
  exact ⟨_, memWrite_accepted v ⟨h0, hc⟩, memRead_storeCell_same v ⟨h0, hc⟩,
    fun b hb => memRead_storeCell_other v ⟨h0, hc⟩ hb, storeCell_extent_eq_max _ _ _, rfl, rfl, rfl, rfl, rfl, rfl⟩

theorem fetch_jumpTo (s : State) (a : Word) : fetch (jumpTo s a) = memRead s a := rfl

theorem fetchDecode_of_fetch {s : State} {v : Word} {i : Instr} (hf : fetch s = .ok v)
    (hd : decode s.cfg.strictModeDigits v = .ok i) : fetchDecode s = .ok i := by
  simp only [fetchDecode, hf, hd]

/-- Settles O9: the fetch is a read of the cell just written. -/
theorem storeIsSeenByTheNextFetch : Obligations.StoreIsSeenByTheNextFetch := by
  intro s t addr v hw
  obtain ⟨h0, hc, rfl⟩ := memWrite_ok hw
  have hf : fetch (jumpTo (storeCell s addr.toNat v) addr) = .ok v := by
    rw [fetch_jumpTo, memRead_storeCell_same v ⟨h0, hc⟩]
  exact ⟨hf, fun i => fetchDecode_of_fetch hf⟩

/-- Settles O53: both bounds are the guards of MemWrite and of what a read gives. -/
theorem capacityBoundsWritesAndReads : Obligations.CapacityBoundsWritesAndReads := by
  intro s a v h0
  refine ⟨fun hc => ?_, fun hstd => ?_⟩
  · have hr : memRead s a = .ok 0 := by rw [memRead_nonneg h0, wordAt_above hc]
    exact ⟨memWrite_above v h0 hc, memWrite_above v h0 hc, hr, hr, hr⟩
  · have ha := acceptsPatch_of_standardCapacity h0 hstd
    exact ⟨memWrite_accepted v ha, by rw [memRead_nonneg h0, wordAt_below ha.2]⟩

/-! The load (R240). -/

theorem Memory.read_ofWords_cons (a : Nat) (w : Word) (ws : List Word) (b : Nat) :
    (Memory.ofWords a (w :: ws)).read b = if b = a then w else (Memory.ofWords (a + 1) ws).read b := by
  rw [Memory.ofWords]
  split
  · next hw =>
    split
    · next hb =>
      rw [hw, hb]
      exact Memory.read_eq_zero fun p hp => Nat.ne_of_gt (Memory.le_of_mem_ofWords hp)
    · rfl
  · exact Memory.read_cons a w _ b

/-- What a read of a loaded store gives: the program's word, 0 beyond it. -/
theorem Memory.read_ofWords (ws : List Word) (a k : Nat) : (Memory.ofWords a ws).read (a + k) = ws[k]?.getD 0 := by
  induction ws generalizing a k with
  | nil => rfl
  | cons w ws ih =>
    rw [Memory.read_ofWords_cons]
    cases k with
    | zero => simp
    | succ k =>
      rw [if_neg (by omega), show a + (k + 1) = a + 1 + k by omega, ih]
      simp

theorem load_read (c : Config) (program : List Word) (a : Nat) :
    (State.load c program).mem.read a = program[a]?.getD 0 := by
  rw [← Memory.read_ofWords program 0 a, Nat.zero_add]
  rfl

theorem load_read_beyond (c : Config) {program : List Word} {a : Nat} (h : program.length ≤ a) :
    (State.load c program).mem.read a = 0 := by
  simp [load_read, h]

/-- Settles O44: the cells are `load_read`, the other items are the fields of the load. -/
theorem resetBuildsTheWholeState : Obligations.ResetBuildsTheWholeState := by
  intro c program
  exact ⟨fun a h => by simp [load_read, h], fun a h => load_read_beyond c h, rfl, rfl, rfl, rfl, rfl, rfl⟩

theorem load_inv (c : Config) {program : List Word} (h : program.length ≤ 2 ^ 63) : (State.load c program).Inv where
  memWf := Memory.ofWords_wf 0 program
  zeroBeyondExtent _ ha := load_read_beyond c ha
  extentInRange := h
  statusLegal := trivial

/-- Settles O39: the reset state is the load of the empty program. -/
theorem invAfterReset : Obligations.InvAfterReset :=
  ⟨load_nil ▸ load_inv Config.standard (Nat.zero_le _), fun c _ h => load_inv c h⟩

/-- Settles O52: at reset the fetched word is 0, which is illegal. -/
theorem resetStateIsTheEmptyProgram : Obligations.ResetStateIsTheEmptyProgram :=
  ⟨load_nil.symm, rfl⟩

/-! The ports (R245, R246, R252). -/

theorem hostMove_patch_error {s : State} {a x : Word} {f : Fault} (h : patch a x s = .error f) :
    hostMove s (.patch a x) = s := by
  simp only [hostMove, h]

theorem hostMove_patch_ok {s t : State} {a x : Word} (h : patch a x s = .ok t) : hostMove s (.patch a x) = t := by
  simp only [hostMove, h]

theorem storeCell_eq (s : State) (a : Nat) (v : Word) :
    storeCell s a v = { s with mem := s.mem.write a v, extent := max s.extent (a + 1) } := by
  rw [← storeCell_extent_eq_max s a v]
  rfl

/-- Settles O45: PATCH is MemWrite, PEEK is MemRead. -/
theorem hostPortsTouchOnlyWhatTheyName : Obligations.HostPortsTouchOnlyWhatTheyName := by
  intro s a x
  refine ⟨rfl, fun hneg => ?_, fun h0 hc => ?_, fun h0 hc => ?_⟩
  · have hw : patch a x s = .error (.negativeAddress a) := memWrite_neg x hneg
    exact ⟨hw, hostMove_patch_error hw, memRead_neg hneg⟩
  · have hw : patch a x s = .error (.capacityExceeded a) := memWrite_above x h0 hc
    exact ⟨hw, hostMove_patch_error hw⟩
  · have hw : patch a x s = .ok (storeCell s a.toNat x) := memWrite_accepted x ⟨h0, hc⟩
    rw [hostMove_patch_ok hw]
    exact ⟨storeCell_eq s a.toNat x, memRead_storeCell_same x ⟨h0, hc⟩⟩

/-- Settles O50: the fields are read off their definitions, Running, Halted and Faulted apart. -/
theorem statusFieldsEncodeTheFault : Obligations.StatusFieldsEncodeTheFault := by
  refine ⟨fun st => ?_, rfl, rfl, fun f => ⟨rfl, rfl, rfl⟩, rfl, rfl, rfl, rfl, rfl, rfl, rfl, rfl,
    fun w => ⟨rfl, rfl, rfl, rfl, rfl, rfl⟩⟩
  cases st with
  | running | halted => exact ⟨by decide, fun _ => ⟨rfl, rfl⟩⟩
  | faulted f => exact ⟨le_rfl, fun h => absurd rfl h⟩

end Sys2Proof.Machine
end

section
/-! The adder and the operand resolver (spec/00_scope.md rule R9; 40_sequencer_and_operands.md rules R115 to R122). -/

namespace Sys2Proof.Machine

theorem narrow_error {c : Config} {z : Int} (h : ¬ c.Admits z) : narrow c z = .error .arithmeticOverflow := by
  rw [narrow_eq, if_neg h]

/-- The wrapped result is congruent to the exact one (R9). -/
theorem dvd_toInt_wrap64_sub (z : Int) : (2 ^ 64 : Int) ∣ (wrap64 z).toInt - z := by
  rw [BitVec.toInt_ofInt]
  exact Int.dvd_bmod_sub_self

/-- Settles O10: the adder and the multiplier are `narrow` of the exact result. -/
theorem adderAndMultiplierNarrowTheExactResult : Obligations.AdderAndMultiplierNarrowTheExactResult := by
  intro c a b z r h
  obtain rfl : r = narrow c z := by
    rcases h with ⟨rfl, rfl⟩ | ⟨rfl, rfl⟩ <;> rfl
  refine ⟨fun hz => ⟨_, narrow_ok (.inr hz), toInt_wrap64 hz⟩,
    fun _ hc => ⟨_, narrow_ok (.inl hc), dvd_toInt_wrap64_sub z⟩, fun hz hc => narrow_error ?_⟩
  rintro (hwrap | hin)
  · rw [hc] at hwrap
    cases hwrap
  · exact hz hin

/-! A Relative operand (R118, R120). -/

theorem relativeAddress_admits {s : State} {p : Word} (h : s.cfg.Admits (s.rb.toInt + p.toInt)) :
    relativeAddress s p = .ok (wrap64 (s.rb.toInt + p.toInt)) := narrow_ok h

theorem relativeAddress_overflow {s : State} {p : Word} (h : ¬ s.cfg.Admits (s.rb.toInt + p.toInt)) :
    relativeAddress s p = .error .arithmeticOverflow := narrow_error h

/-- Settles O13: the read of the cell at `add64(rb, p_k)`. -/
theorem relativeOperandReadsFromTheBase : Obligations.RelativeOperandReadsFromTheBase := by
  intro s k hk hr
  rw [readOperand_inRange hk hr, readByMode]
  refine ⟨fun ha ea hea => ?_, fun ha => ?_⟩
  · rw [relativeAddress_admits ha, ← hea]
    exact ⟨memRead_neg, memRead_nonneg⟩
  · rw [relativeAddress_overflow ha]

/-- A write operand's parameter read drops out when its position is a word address (R114, R122). -/
theorem writeOperand_inRange {s : State} {k : Nat} (hk : k < 3) (h : s.ParamInRange k) (m : WMode) :
    writeOperand s k m = addressByMode s (s.paramAt k) m := by
  rw [writeOperand, readParam_inRange hk h]

/-- Settles O14: the address check on the parameter, or on `add64(rb, p_k)`. -/
theorem writeOperandResolvesToAnAddress : Obligations.WriteOperandResolvesToAnAddress := by
  intro s k hk hr
  rw [writeOperand_inRange hk hr, writeOperand_inRange hk hr]
  refine ⟨?_, fun ha a hea => ?_, fun ha => ?_⟩
  · rintro a rfl
    exact checkAddress_eq _
  · rw [addressByMode, relativeAddress_admits ha, ← hea]
    exact checkAddress_eq a
  · rw [addressByMode, relativeAddress_overflow ha]

theorem readOperand_paramFault {s : State} {k : Nat} {f : Fault} (h : readParam s k = .error f) (m : Mode) :
    readOperand s k m = .error f := by
  rw [readOperand, h]

theorem writeOperand_paramFault {s : State} {k : Nat} {f : Fault} (h : readParam s k = .error f) (m : WMode) :
    writeOperand s k m = .error f := by
  rw [writeOperand, h]

/-- Settles O15: the fault of the parameter read is the operand's. -/
theorem parameterPositionOutsideTheAddressesFaults : Obligations.ParameterPositionOutsideTheAddressesFaults := by
  rintro s k m w hk hr f rfl
  have hp := readParam_outOfRange hk hr
  rw [← apply_ite Except.error] at hp
  exact ⟨readOperand_paramFault hp m, writeOperand_paramFault hp w⟩

end Sys2Proof.Machine
end

section
/-! The instructions: results and completion (spec/41_arithmetic.md to 45_relative_base.md). Each instruction's lemma of
`Laws/Exec.lean` leaves only the completed case when nothing faults. -/

namespace Sys2Proof.Machine

/-- The four instructions of format F3 store what their function gives (R140, R141, R170, R171). -/
theorem computeAndStore_completes {f : Config → Word → Word → Except Fault Word} {a b : Mode} {dst : WMode} {s : State}
    {r : Word} (hf : ∀ x y g, f s.cfg x y = .error g → Raisable s.cfg g) (ha : s.ReadReady 0 a)
    (hb : s.ReadReady 1 b) (hd : s.WriteReady 2 dst) (hr : f s.cfg (s.readValue 0 a) (s.readValue 1 b) = .ok r)
    (hc : s.writeTarget 2 dst < s.cfg.memCapacity) (hadv : s.AdvanceReady 4) :
    computeAndStore f a b dst s = .next { s with
      mem := s.mem.write (s.writeTarget 2 dst) r
      extent := max s.extent (s.writeTarget 2 dst + 1)
      ip := s.ipAfter 4 } := by
  rcases computeAndStore_cases f a b dst s hf with ⟨r', -, -, -, hr', -, -, -, e⟩ | ⟨g, -, -, hn⟩
  · obtain rfl : r' = r := Except.ok.inj (hr'.symm.trans hr)
    rw [e, storeCell_eq]
  · exact absurd ⟨ha, hb, hd, ⟨r, hr⟩, hc, hadv⟩ hn

/-- Settles O16: the adder gives the wrapped sum. -/
theorem addStoresTheSum : Obligations.AddStoresTheSum := fun _ _ _ _ ha hb hd hsum hc hadv =>
  computeAndStore_completes (add64_possible _) ha hb hd (narrow_ok hsum) hc hadv

/-- Settles O17: the multiplier gives the wrapped product. -/
theorem multiplyStoresTheProduct : Obligations.MultiplyStoresTheProduct := fun _ _ _ _ ha hb hd hprod hc hadv =>
  computeAndStore_completes (mul64_possible _) ha hb hd (narrow_ok hprod) hc hadv

theorem truthWord_isLess (x y : Word) : truthWord (isLess x y) = if x.toInt < y.toInt then 1 else 0 := by
  simp only [truthWord, isLess, decide_eq_true_eq]

theorem truthWord_isEqual (x y : Word) : truthWord (isEqual x y) = if x.toInt = y.toInt then 1 else 0 := by
  simp only [truthWord, isEqual, decide_eq_true_eq, BitVec.toInt_inj]

/-- Settles O18: the signed comparison as a word. -/
theorem lessThanStoresTheSignedComparison : Obligations.LessThanStoresTheSignedComparison := by
  intro a b dst s ha hb hd hc hadv
  rw [← truthWord_isLess]
  exact computeAndStore_completes (compareWords_possible _ _) ha hb hd rfl hc hadv

/-- Settles O19: the equality as a word. -/
theorem equalsStoresTheEquality : Obligations.EqualsStoresTheEquality := by
  intro a b dst s ha hb hd hc hadv
  rw [← truthWord_isEqual]
  exact computeAndStore_completes (compareWords_possible _ _) ha hb hd rfl hc hadv

theorem exec_input (dst : WMode) (s : State) : exec (.input dst) s = execInput dst s := rfl

theorem exec_output (src : Mode) (s : State) : exec (.output src) s = execOutput src s := rfl

theorem exec_adjustRelativeBase (delta : Mode) (s : State) :
    exec (.adjustRelativeBase delta) s = execAdjustRelativeBase delta s := rfl

theorem exec_jumpIfTrue (cond target : Mode) (s : State) :
    exec (.jumpIfTrue cond target) s = jumpWhen isNonZero cond target s := rfl

theorem exec_jumpIfFalse (cond target : Mode) (s : State) :
    exec (.jumpIfFalse cond target) s = jumpWhen (fun c => !isNonZero c) cond target s := rfl

/-- Settles O20: the completed case of `execInput_cases`. -/
theorem inputStoresTheHeadOfTheQueue : Obligations.InputStoresTheHeadOfTheQueue := by
  intro dst s x rest hd hq hc hadv
  rw [exec_input]
  rcases execInput_cases dst s with ⟨x', rest', -, hq', -, -, -, e⟩ | ⟨g, -, -, hn⟩
  · obtain ⟨rfl, rfl⟩ := List.cons.inj (hq'.symm.trans hq)
    rw [e, storeCell_eq]
  · exact absurd ⟨hd, by simp [hq], hc, hadv⟩ hn

/-- Settles O21: the completed case of `execOutput_cases`. -/
theorem outputAppendsTheValue : Obligations.OutputAppendsTheValue := by
  intro src s ha hadv
  rw [exec_output]
  rcases execOutput_cases src s with ⟨-, -, e⟩ | ⟨g, -, -, hn⟩
  · exact e
  · exact absurd ⟨ha, hadv⟩ hn

/-- A jump whose test holds goes to its target (R126). -/
theorem jumpWhen_taken {test : Word → Bool} {cond target : Mode} {s : State} (ha : s.ReadReady 0 cond)
    (hb : s.ReadReady 1 target) (ht : test (s.readValue 0 cond) = true) :
    jumpWhen test cond target s = .next { s with ip := s.readValue 1 target } := by
  rcases jumpWhen_cases test cond target s with ⟨-, -, -, e⟩ | ⟨-, -, hn, -⟩ | ⟨g, -, -, hn⟩
  · exact e
  · rw [ht] at hn
    cases hn
  · exact absurd ⟨ha, hb, .inl ht⟩ hn

/-- A jump whose test fails advances by 3 (R125). -/
theorem jumpWhen_notTaken {test : Word → Bool} {cond target : Mode} {s : State} (ha : s.ReadReady 0 cond)
    (hb : s.ReadReady 1 target) (ht : test (s.readValue 0 cond) = false) (hadv : s.AdvanceReady 3) :
    jumpWhen test cond target s = .next { s with ip := s.ipAfter 3 } := by
  rcases jumpWhen_cases test cond target s with ⟨-, -, hn, -⟩ | ⟨-, -, -, -, e⟩ | ⟨g, -, -, hn⟩
  · rw [ht] at hn
    cases hn
  · exact e
  · exact absurd ⟨ha, hb, .inr hadv⟩ hn

theorem isNonZero_eq_decide_toInt (w : Word) : isNonZero w = decide (w.toInt ≠ 0) := by
  have hz : w = 0 ↔ w.toInt = 0 := ⟨fun h => h ▸ rfl, fun h => BitVec.eq_of_toInt_eq h⟩
  simp only [isNonZero, ne_eq, hz]

/-- Settles O22: the test is that the condition is not 0. -/
theorem jumpIfTrueFollowsTheCondition : Obligations.JumpIfTrueFollowsTheCondition := by
  intro cond target s ha hb
  rw [exec_jumpIfTrue]
  exact ⟨fun hc => jumpWhen_taken ha hb (by simpa [isNonZero_eq_decide_toInt] using hc),
    fun hc hadv => jumpWhen_notTaken ha hb (by simpa [isNonZero_eq_decide_toInt] using hc) hadv⟩

/-- Settles O23: the test is that the condition is 0. -/
theorem jumpIfFalseFollowsTheCondition : Obligations.JumpIfFalseFollowsTheCondition := by
  intro cond target s ha hb
  rw [exec_jumpIfFalse]
  exact ⟨fun hc => jumpWhen_taken ha hb (by simpa [isNonZero_eq_decide_toInt] using hc),
    fun hc hadv => jumpWhen_notTaken ha hb (by simpa [isNonZero_eq_decide_toInt] using hc) hadv⟩

/-- Settles O24: the completed case of `execAdjustRelativeBase_cases`. -/
theorem adjustRelativeBaseAddsTheDelta : Obligations.AdjustRelativeBaseAddsTheDelta := by
  intro delta s ha hsum hadv
  rw [exec_adjustRelativeBase]
  rcases execAdjustRelativeBase_cases delta s with ⟨-, -, -, e⟩ | ⟨g, -, -, hn⟩
  · exact e
  · exact absurd ⟨ha, hsum, hadv⟩ hn

end Sys2Proof.Machine
end

section
/-! Frames: what an instruction leaves unchanged (spec/20_memory.md; 40_sequencer_and_operands.md section 4), each read off
the relation `Effect`. -/

namespace Sys2Proof.Machine

theorem TakenJump.isJump {i : Instr} {s : State} {target : Word} (h : TakenJump i s target) :
    ∃ a b, i = .jumpIfTrue a b ∨ i = .jumpIfFalse a b := by
  obtain ⟨a, b, -, -, -, ⟨rfl, -⟩ | ⟨rfl, -⟩⟩ := h
  · exact ⟨a, b, .inl rfl⟩
  · exact ⟨a, b, .inr rfl⟩

theorem writeOperandOf_jump {i : Instr} (h : ∃ a b, i = .jumpIfTrue a b ∨ i = .jumpIfFalse a b) :
    writeOperandOf i = none := by
  obtain ⟨a, b, rfl | rfl⟩ := h <;> rfl

theorem jump_ne_halt {i : Instr} (h : ∃ a b, i = .jumpIfTrue a b ∨ i = .jumpIfFalse a b) : i ≠ .halt := by
  obtain ⟨a, b, rfl | rfl⟩ := h <;> simp

theorem instrLength_jump {i : Instr} (h : ∃ a b, i = .jumpIfTrue a b ∨ i = .jumpIfFalse a b) :
    instrLength i = 3 := by
  obtain ⟨a, b, rfl | rfl⟩ := h <;> rfl

theorem ne_halt_of_writeOperandOf {i : Instr} {km : Nat × WMode} (h : writeOperandOf i = some km) : i ≠ .halt := by
  rintro rfl
  cases h

theorem not_takenJump_of_writeOperandOf {i : Instr} {km : Nat × WMode} (h : writeOperandOf i = some km) {s : State}
    (target : Word) : ¬ TakenJump i s target := fun hj => by
  rw [writeOperandOf_jump hj.isJump] at h
  cases h

/-- `t` is `s` after a completed store at write operand `k`: the cell, the extent, and what stays. -/
structure StoredAt (s t : State) (k : Nat) (m : WMode) : Prop where
  isOperand : k < 3
  ready : s.WriteReady k m
  inCapacity : s.writeTarget k m < s.cfg.memCapacity
  mem : ∃ v, t.mem = s.mem.write (s.writeTarget k m) v
  extent : t.extent = max s.extent (s.writeTarget k m + 1)
  rb : t.rb = s.rb
  outq : t.outq = s.outq
  cfg : t.cfg = s.cfg
  st : t.st = s.st

/-- A storing instruction completes its store, Input with the head of the queue, or enters a fault. -/
theorem Effect.of_storing {i : Instr} {s t : State} {k : Nat} {m : WMode} (e : Effect i s t)
    (hi : writeOperandOf i = some (k, m)) :
    (StoredAt s t k m ∧ (t.inq = s.inq ∨ i = .input m ∧ ∃ x, s.inq = x :: t.inq)) ∨ ∃ f, t = takeFault f s := by
  cases e with
  | store v op ready inCap =>
    obtain ⟨rfl, rfl⟩ := Prod.mk.inj (Option.some.inj (op.symm.trans hi))
    exact .inl ⟨⟨by omega, ready, inCap, ⟨v, rfl⟩, storeCell_extent_eq_max _ _ v, rfl, rfl, rfl, rfl⟩, .inl rfl⟩
  | input x rest ready queue inCap =>
    obtain ⟨rfl, rfl⟩ := Prod.mk.inj (Option.some.inj hi)
    exact .inl ⟨⟨by omega, ready, inCap, ⟨x, rfl⟩, storeCell_extent_eq_max _ _ x, rfl, rfl, rfl, rfl⟩,
      .inr ⟨rfl, x, queue⟩⟩
  | jump target taken => exact absurd taken (not_takenJump_of_writeOperandOf hi target)
  | fallThrough isJump =>
    rw [writeOperandOf_jump isJump] at hi
    cases hi
  | output | adjust | halt => cases hi
  | fault f => exact .inr ⟨f, rfl⟩

/-- The address a completed store's write operand resolves to. -/
theorem StoredAt.writeOperand_eq {s t : State} {k : Nat} {m : WMode} (h : StoredAt s t k m) :
    writeOperand s k m = .ok (s.targetWord k m) :=
  writeOperand_of_ready h.isOperand h.ready

theorem StoredAt.read_other {s t : State} {k : Nat} {m : WMode} (h : StoredAt s t k m) {a : Nat}
    (ha : a ≠ s.writeTarget k m) : t.mem.read a = s.mem.read a := by
  obtain ⟨v, hv⟩ := h.mem
  rw [hv, Memory.read_write_other _ v ha]

/-- Settles O26: a completed store changes its own cell, and a fault entry only `st`. -/
theorem storingInstructionsChangeOnlyTheirCell : Obligations.StoringInstructionsChangeOnlyTheirCell := by
  intro i k m s t hi he
  rcases (effect_of_exec he).of_storing hi with ⟨stored, hinq⟩ | ⟨f, rfl⟩
  · rw [stored.writeOperand_eq]
    refine ⟨?_, ?_, fun f hf => (by cases hf), stored.rb, stored.outq, stored.cfg, hinq, .inl stored.st⟩
    · rintro _ ⟨⟩ a ha
      exact stored.read_other (targetWord_toNat s k m ▸ ha)
    · rintro _ ⟨⟩
      exact .inr (by rw [stored.extent, targetWord_toNat])
  · exact ⟨fun _ _ _ _ => rfl, fun _ _ => .inl rfl, fun _ _ => ⟨rfl, rfl⟩, rfl, rfl, rfl, .inl rfl, .inr ⟨f, rfl⟩⟩

/-- Settles O27: case by case on the effect. -/
theorem otherInstructionsStoreNothing : Obligations.OtherInstructionsStoreNothing := by
  intro i s t hi he
  cases effect_of_exec he with
  | store v op =>
    rw [hi] at op
    cases op
  | input => cases hi
  | output => exact ⟨rfl, rfl, rfl, rfl, .inr ⟨_, rfl⟩, .inl rfl, fun h => (by cases h), .inl rfl⟩
  | jump target taken =>
    exact ⟨rfl, rfl, rfl, rfl, .inl rfl, .inl rfl, fun h => absurd h (jump_ne_halt taken.isJump), .inl rfl⟩
  | fallThrough isJump =>
    exact ⟨rfl, rfl, rfl, rfl, .inl rfl, .inl rfl, fun h => absurd h (jump_ne_halt isJump), .inl rfl⟩
  | adjust => exact ⟨rfl, rfl, rfl, rfl, .inl rfl, .inr ⟨_, rfl⟩, fun h => (by cases h), .inl rfl⟩
  | halt => exact ⟨rfl, rfl, rfl, rfl, .inl rfl, .inl rfl, fun _ => rfl, .inr (.inl ⟨rfl, rfl⟩)⟩
  | fault f => exact ⟨rfl, rfl, rfl, rfl, .inl rfl, .inl rfl, fun _ => rfl, .inr (.inr ⟨f, rfl⟩)⟩

theorem not_takenJump_of_not_jump {i : Instr} (ht : ∀ a b, i ≠ .jumpIfTrue a b) (hf : ∀ a b, i ≠ .jumpIfFalse a b)
    {s : State} (target : Word) : ¬ TakenJump i s target := fun hj => by
  obtain ⟨a, b, h | h⟩ := hj.isJump
  · exact ht a b h
  · exact hf a b h

/-- Settles O28: case by case on the effect; the advance of each is its length. -/
theorem stepAdvancesByTheLength : Obligations.StepAdvancesByTheLength := by
  intro i s t _ he hnofault
  cases effect_of_exec he with
  | store v op ready inCap isAddr advances length =>
    rw [length]
    exact .inr (.inr ⟨ne_halt_of_writeOperandOf op, fun target => not_takenJump_of_writeOperandOf op target, advances, rfl⟩)
  | input x rest ready queue inCap isAddr advances =>
    exact .inr (.inr ⟨by simp, fun target => not_takenJump_of_writeOperandOf rfl target, advances, rfl⟩)
  | output ready advances =>
    exact .inr (.inr ⟨by simp, not_takenJump_of_not_jump (by simp) (by simp), advances, rfl⟩)
  | jump target taken => exact .inr (.inl taken)
  | fallThrough isJump notTaken advances =>
    rw [instrLength_jump isJump]
    exact .inr (.inr ⟨jump_ne_halt isJump, notTaken, advances, rfl⟩)
  | adjust ready advances =>
    exact .inr (.inr ⟨by simp, not_takenJump_of_not_jump (by simp) (by simp), advances, rfl⟩)
  | halt => exact .inl ⟨rfl, rfl⟩
  | fault f => exact absurd rfl (hnofault f)

end Sys2Proof.Machine
end

section
/-! One step (spec/40_sequencer_and_operands.md rule R110): what it fetches, which fault it reports, how `st`, `rb`, the
queues and the extent move. -/

namespace Sys2Proof.Machine

/-! Fetch and decode, and the step over them. -/

theorem step_of_decoded {s : State} {i : Instr} (h : s.st = .running) (hi : fetchDecode s = .ok i) :
    step s = exec i s := by
  rw [step_running h, hi]

theorem step_of_fetchFault {s : State} {f : Fault} (h : s.st = .running) (hf : fetchDecode s = .error f) :
    step s = .next (takeFault f s) := by
  rw [step_running h, hf]

theorem fetchDecode_negative {s : State} (h : s.ip.toInt < 0) : fetchDecode s = .error (.negativeAddress s.ip) := by
  simp only [fetchDecode, fetch, memRead_neg h]

theorem fetchDecode_legal {s : State} {i : Instr} (h : 0 ≤ s.ip.toInt)
    (hd : decode s.cfg.strictModeDigits (s.wordAt s.ip.toNat) = .ok i) : fetchDecode s = .ok i :=
  fetchDecode_of_fetch (memRead_nonneg h) hd

theorem fetchDecode_illegal {s : State} (h : 0 ≤ s.ip.toInt)
    (hd : ∀ i, decode s.cfg.strictModeDigits (s.wordAt s.ip.toNat) ≠ .ok i) :
    fetchDecode s = .error (.unknownOpcode (s.wordAt s.ip.toNat)) := by
  rw [fetchDecode_nonneg h]
  cases he : decode s.cfg.strictModeDigits (s.wordAt s.ip.toNat) with
  | ok i => exact absurd he (hd i)
  | error e => rw [decode_error he]

/-- Settles O29: the fetch is a read of the word at `ip`. -/
theorem stepRunsTheDecodedInstruction : Obligations.StepRunsTheDecodedInstruction := fun _ _ hs h0 hd =>
  step_of_decoded hs (fetchDecode_legal h0 hd)

/-! The first fault of the operands (R212). -/

theorem computeAndStore_operandFault {g : Config → Word → Word → Except Fault Word} {a b : Mode} {dst : WMode}
    {s : State} {f : Fault}
    (h : firstOperandFault [readOperand s 0 a, readOperand s 1 b, writeOperand s 2 dst] = some f) :
    computeAndStore g a b dst s = .next (takeFault f s) := by
  unfold computeAndStore
  revert h
  cases readOperand s 0 a with
  | error f0 =>
    rintro ⟨⟩
    rfl
  | ok x =>
    cases readOperand s 1 b with
    | error f1 =>
      rintro ⟨⟩
      rfl
    | ok y =>
      cases writeOperand s 2 dst with
      | error f2 =>
        rintro ⟨⟩
        rfl
      | ok d => rintro ⟨⟩

theorem jumpWhen_operandFault {test : Word → Bool} {cond target : Mode} {s : State} {f : Fault}
    (h : firstOperandFault [readOperand s 0 cond, readOperand s 1 target] = some f) :
    jumpWhen test cond target s = .next (takeFault f s) := by
  unfold jumpWhen
  revert h
  cases readOperand s 0 cond with
  | error f0 =>
    rintro ⟨⟩
    rfl
  | ok x =>
    cases readOperand s 1 target with
    | error f1 =>
      rintro ⟨⟩
      rfl
    | ok y => rintro ⟨⟩

theorem firstOperandFault_singleton {r : Except Fault Word} {f : Fault} :
    firstOperandFault [r] = some f ↔ r = .error f := by
  cases r <;> simp [firstOperandFault]

theorem execInput_operandFault {dst : WMode} {s : State} {f : Fault} (h : writeOperand s 0 dst = .error f) :
    execInput dst s = .next (takeFault f s) := by
  unfold execInput
  rw [h]
  rfl

theorem execOutput_operandFault {src : Mode} {s : State} {f : Fault} (h : readOperand s 0 src = .error f) :
    execOutput src s = .next (takeFault f s) := by
  unfold execOutput
  rw [h]
  rfl

theorem execAdjustRelativeBase_operandFault {delta : Mode} {s : State} {f : Fault}
    (h : readOperand s 0 delta = .error f) : execAdjustRelativeBase delta s = .next (takeFault f s) := by
  unfold execAdjustRelativeBase
  rw [h]
  rfl

/-- Stage 4 of R212: an instruction enters the fault of its lowest operand that does not resolve. -/
theorem exec_operandFault {i : Instr} {s : State} {f : Fault} (h : firstOperandFault (resolutions i s) = some f) :
    exec i s = .next (takeFault f s) := by
  cases i with
  | add | multiply | lessThan | equals => exact computeAndStore_operandFault h
  | input dst => exact execInput_operandFault (firstOperandFault_singleton.mp h)
  | output src => exact execOutput_operandFault (firstOperandFault_singleton.mp h)
  | jumpIfTrue | jumpIfFalse => exact jumpWhen_operandFault h
  | adjustRelativeBase delta => exact execAdjustRelativeBase_operandFault (firstOperandFault_singleton.mp h)
  | halt => cases h

/-- Settles O30: one stage after the other. -/
theorem firstFaultInStageOrderIsReported : Obligations.FirstFaultInStageOrderIsReported := by
  intro s hs
  refine ⟨fun hneg => step_of_fetchFault hs (fetchDecode_negative hneg),
    fun h0 hd => step_of_fetchFault hs (fetchDecode_illegal h0 hd), fun i f hi hf => ?_⟩
  rw [step_of_decoded hs hi, exec_operandFault hf]

/-! What is latched. -/

theorem fetchDecode_ne_readOutOfInput {s : State} {f : Fault} (h : fetchDecode s = .error f) : f ≠ .readOutOfInput := by
  rcases fetchDecode_error h with ⟨-, rfl⟩ | ⟨-, rfl, -⟩ <;> simp

/-- How an instruction moves `st`: not at all, to Halted by Halt, or by a fault entry. -/
theorem Effect.status {i : Instr} {s t : State} (e : Effect i s t) :
    (i ≠ .halt ∧ t.st = s.st) ∨ (i = .halt ∧ t = { s with st := .halted }) ∨
      ∃ f, t = takeFault f s ∧ f.Possible s.cfg ∧ (f = .readOutOfInput → s.inq = [] ∧ ∃ m, i = .input m) := by
  cases e with
  | store v op => exact .inl ⟨ne_halt_of_writeOperandOf op, rfl⟩
  | input | output | adjust => exact .inl ⟨by simp, rfl⟩
  | jump target taken => exact .inl ⟨jump_ne_halt taken.isJump, rfl⟩
  | fallThrough isJump => exact .inl ⟨jump_ne_halt isJump, rfl⟩
  | halt => exact .inr (.inl ⟨rfl, rfl⟩)
  | fault f possible emptyQueue => exact .inr (.inr ⟨f, rfl, possible, emptyQueue⟩)

/-- How a step moves `st` (R28), with what is latched. -/
theorem step_status {s t : State} (h : step s = .next t) :
    (∃ i, fetchDecode s = .ok i ∧ i ≠ .halt ∧ t.st = .running) ∨
      (fetchDecode s = .ok .halt ∧ t = { s with st := .halted }) ∨
      ∃ f, t = takeFault f s ∧ f.Possible s.cfg ∧
        (f = .readOutOfInput → s.inq = [] ∧ ∃ m, fetchDecode s = .ok (.input m)) := by
  obtain ⟨hs, ⟨f, hf, hp, rfl⟩ | ⟨i, hi, e⟩⟩ := step_next h
  · exact .inr (.inr ⟨f, rfl, hp, fun h0 => absurd h0 (fetchDecode_ne_readOutOfInput hf)⟩)
  · rcases e.status with ⟨hne, hst⟩ | ⟨rfl, ht⟩ | ⟨f, ht, hp, hq⟩
    · exact .inl ⟨i, hi, hne, hst.trans hs⟩
    · exact .inr (.inl ⟨hi, ht⟩)
    · refine .inr (.inr ⟨f, ht, hp, fun h0 => ?_⟩)
      obtain ⟨hinq, m, rfl⟩ := hq h0
      exact ⟨hinq, m, hi⟩

/-- A step that ends Faulted entered that fault. -/
theorem step_faulted_entry {s t : State} {f : Fault} (h : step s = .next t) (ht : t.st = .faulted f) :
    t = takeFault f s ∧ f.Possible s.cfg ∧
      (f = .readOutOfInput → s.inq = [] ∧ ∃ m, fetchDecode s = .ok (.input m)) := by
  rcases step_status h with ⟨-, -, -, hrun⟩ | ⟨-, rfl⟩ | ⟨g, rfl, hp, hq⟩
  · rw [hrun] at ht
    cases ht
  · cases ht
  · obtain rfl := Status.faulted.inj ht
    exact ⟨rfl, hp, hq⟩

theorem step_fault_possible {s t : State} {f : Fault} (h : step s = .next t) (ht : t.st = .faulted f) :
    f.Possible s.cfg := by
  obtain ⟨-, possible, -⟩ := step_faulted_entry h ht
  exact possible

theorem step_readOutOfInput {s t : State} (h : step s = .next t) (ht : t.st = .faulted .readOutOfInput) :
    s.inq = [] ∧ ∃ m, fetchDecode s = .ok (.input m) := by
  obtain ⟨-, -, emptyQueue⟩ := step_faulted_entry h ht
  exact emptyQueue rfl

/-- Input on an empty queue whose destination resolves (R204). -/
theorem execInput_emptyQueue {dst : WMode} {s : State} (hd : s.WriteReady 0 dst) (hq : s.inq = []) :
    execInput dst s = .next (takeFault .readOutOfInput s) := by
  have hp : popInput s = .error .readOutOfInput := by simp only [popInput, hq]
  unfold execInput
  rw [writeOperand_of_ready (by omega) hd, hp]
  rfl

theorem writeOperand_ne_readOutOfInput {s : State} {k : Nat} (hk : k < 3) {m : WMode} {f : Fault}
    (h : writeOperand s k m = .error f) : f ≠ .readOutOfInput := by
  rcases writeOperand_cases s hk m with ⟨-, -, e⟩ | ⟨-, g, e, hg⟩
  · rw [h] at e
    cases e
  · obtain rfl := Except.error.inj (h.symm.trans e)
    exact hg.2

/-- Settles O31: Input's own stages, and the entry of a step that ends with this fault. -/
theorem readOutOfInputOnlyFromInputOnEmptyQueue : Obligations.ReadOutOfInputOnlyFromInputOnEmptyQueue :=
  ⟨fun _ _ hd hq => execInput_emptyQueue hd hq,
    fun _ _ _ hf => ⟨writeOperand_ne_readOutOfInput (by omega) hf, execInput_operandFault hf⟩,
    fun _ _ h ht => step_readOutOfInput h ht, rfl⟩

/-! The answers (R128). -/

theorem request_of_faulted {s t : State} {f : Fault} (h : step s = .next t) (ht : t.st = .faulted f) :
    request s = (t, .fault f) := by
  cases hf : fetchDecode s <;> simp only [request, h, ht]

theorem request_of_done {s t : State} {i : Instr} (h : step s = .next t) (ht : ∀ f, t.st ≠ .faulted f)
    (hi : fetchDecode s = .ok i) : request s = (t, .done i) := by
  simp only [request, h, hi]

theorem request_of_stopped {s : State} {f : Fault} (h : step s = .fault f) : request s = (s, .fault f) := by
  simp only [request, h]

/-- Settles O32: `step_status`, with the answer to each. -/
theorem statusMovesOnlyAsTheTableSays : Obligations.StatusMovesOnlyAsTheTableSays := by
  intro s
  refine ⟨fun hs => ?_, fun hs => ⟨step_halted hs, request_of_stopped (step_halted hs)⟩,
    fun f hs => ⟨step_faulted hs, request_of_stopped (step_faulted hs)⟩⟩
  obtain ⟨t, ht⟩ := step_total hs
  refine ⟨t, ht, ?_⟩
  rcases step_status ht with ⟨i, hi, hne, hrun⟩ | ⟨hi, rfl⟩ | ⟨f, rfl, -, -⟩
  · exact .inl ⟨i, hi, hne, hrun, request_of_done ht (by simp [hrun]) hi⟩
  · exact .inr (.inl ⟨hi, rfl, request_of_done ht (by simp) hi⟩)
  · exact .inr (.inr ⟨f, rfl, request_of_faulted ht rfl⟩)

/-- Settles O33: a fault entry writes `st` alone. -/
theorem faultingStepChangesOnlyTheStatus : Obligations.FaultingStepChangesOnlyTheStatus := fun _ _ _ h ht =>
  (step_faulted_entry h ht).1

/-! The base, the queues, the extent and the parameters. -/

/-- Settles O34: every effect but AdjustRelativeBase's leaves `rb`. -/
theorem onlyAdjustRelativeBaseWritesTheBase : Obligations.OnlyAdjustRelativeBaseWritesTheBase := by
  intro s t h hrb
  obtain ⟨-, ⟨f, -, -, rfl⟩ | ⟨i, hi, e⟩⟩ := step_next h
  · exact absurd rfl hrb
  · cases e with
    | adjust ready => exact ⟨_, hi, ready, rfl⟩
    | store | input | output | jump | fallThrough | halt | fault => exact absurd rfl hrb

/-- Settles O35: every effect but Input's leaves `inq`, and every one but Output's `outq`. -/
theorem queuesMoveOnlyByInputAndOutput : Obligations.QueuesMoveOnlyByInputAndOutput := by
  intro s t h
  obtain ⟨-, ⟨f, -, -, rfl⟩ | ⟨i, hi, e⟩⟩ := step_next h
  · exact ⟨.inl rfl, .inl rfl⟩
  · cases e with
    | input x rest ready queue =>
      exact ⟨.inr ⟨_, x, hi, queue, Memory.read_write_same _ _ x⟩, .inl rfl⟩
    | output => exact ⟨.inl rfl, .inr ⟨_, hi, rfl⟩⟩
    | store | jump | fallThrough | adjust | halt | fault => exact ⟨.inl rfl, .inl rfl⟩

/-- What a step can do to the extent and the parameters: nothing, or a completed store. -/
theorem step_extent {s t : State} (h : step s = .next t) :
    (t.cfg = s.cfg ∧ t.extent = s.extent) ∨
      ∃ i k m, fetchDecode s = .ok i ∧ writeOperandOf i = some (k, m) ∧ StoredAt s t k m := by
  obtain ⟨hs, ⟨f, -, -, rfl⟩ | ⟨i, hi, e⟩⟩ := step_next h
  · exact .inl ⟨rfl, rfl⟩
  · cases hw : writeOperandOf i with
    | none =>
      obtain ⟨-, hext, -, hcfg, -⟩ := otherInstructionsStoreNothing i s t hw (step_of_decoded hs hi ▸ h)
      exact .inl ⟨hcfg, hext⟩
    | some km =>
      rcases e.of_storing hw with ⟨stored, -⟩ | ⟨f, rfl⟩
      · exact .inr ⟨i, km.1, km.2, hi, hw, stored⟩
      · exact .inl ⟨rfl, rfl⟩

/-- Settles O36: a completed store grows the extent to its cell, which is below the capacity. -/
theorem extentOnlyGrowsAndParametersStay : Obligations.ExtentOnlyGrowsAndParametersStay := by
  intro s t h
  rcases step_extent h with ⟨hcfg, hext⟩ | ⟨i, k, m, hi, hw, stored⟩
  · exact ⟨hcfg, hext.ge, fun hne => absurd hext hne⟩
  · have hcap := stored.inCapacity
    have hext := stored.extent
    exact ⟨stored.cfg, by omega, fun _ => ⟨i, k, m, hi, hw, by omega, by omega⟩⟩

/-- A taken jump sets `ip` and nothing else (R126, R163). -/
theorem exec_takenJump {i : Instr} {s : State} {target : Word} (h : TakenJump i s target) :
    exec i s = .next { s with ip := target } := by
  obtain ⟨cond, tgt, c, hc, ht, ⟨rfl, h0⟩ | ⟨rfl, h0⟩⟩ := h
  · rw [exec_jumpIfTrue, jumpWhen, hc, ht]
    simp only [bind, Except.bind, (isNonZero_eq_true c).mpr h0]
    rfl
  · rw [exec_jumpIfFalse, jumpWhen, hc, ht]
    simp only [bind, Except.bind, (isNonZero_eq_false c).mpr h0]
    rfl

/-- Settles O37: the jump has no check; the fetch has. -/
theorem negativeJumpTargetFaultsAtTheNextFetch : Obligations.NegativeJumpTargetFaultsAtTheNextFetch := by
  intro i s target hs hj hneg
  exact ⟨_, exec_takenJump hj, rfl,
    step_of_fetchFault (s := { s with ip := target }) hs (fetchDecode_negative hneg)⟩

theorem not_possible_optionFault_of_standard {c : Config} (hc : c = Config.standard) :
    ¬ Fault.arithmeticOverflow.Possible c ∧ ∀ a, ¬ (Fault.capacityExceeded a).Possible c := by
  subst hc
  refine ⟨fun h => (by cases h), fun a ⟨h0, hc⟩ => ?_⟩
  have := (toNat_of_nonneg h0).2
  simp only [Config.standard] at hc
  omega

/-- Settles O41: a step latches only faults that its core can raise. -/
theorem standardMachineRaisesNoOptionFault : Obligations.StandardMachineRaisesNoOptionFault := by
  intro s t hc h
  obtain ⟨hover, hcap⟩ := not_possible_optionFault_of_standard hc
  exact ⟨fun ht => hover (step_fault_possible h ht), fun a ht => hcap a (step_fault_possible h ht)⟩

/-! A placed word (log entry 4). -/

theorem placeWords_lower (ws : List Word) (a : Nat) (s : State) {b : Nat} (hb : b < a) :
    (placeWords a ws s).mem.read b = s.mem.read b := by
  induction ws generalizing a s with
  | nil => rfl
  | cons w ws ih =>
    rw [placeWords, ih (a + 1) _ (by omega)]
    split
    · exact Memory.read_write_other _ w (by omega)
    · rfl

/-- Placing words changes memory and the extent alone. -/
theorem placeWords_frame (ws : List Word) (a : Nat) (s : State) :
    (placeWords a ws s).ip = s.ip ∧ (placeWords a ws s).st = s.st ∧ (placeWords a ws s).cfg = s.cfg := by
  induction ws generalizing a s with
  | nil => exact ⟨rfl, rfl, rfl⟩
  | cons w ws ih =>
    obtain ⟨hip, hst, hcfg⟩ := ih (a + 1) (if a < 2 ^ 63 then storeCell s a w else s)
    rw [placeWords, hip, hst, hcfg]
    split <;> exact ⟨rfl, rfl, rfl⟩

theorem withFetchWord_frame (s : State) (nbits w : Nat) :
    (s.withFetchWord nbits w).ip = s.ip ∧ (s.withFetchWord nbits w).st = s.st ∧
      (s.withFetchWord nbits w).cfg = s.cfg := by
  unfold State.withFetchWord placeAtFetch
  split
  · exact ⟨rfl, rfl, rfl⟩
  · exact placeWords_frame _ _ _

/-- The first placed word is the one at `ip`: the others lie above it. -/
theorem withFetchWord_read {s : State} (h : 0 ≤ s.ip.toInt) (nbits w : Nat) :
    (s.withFetchWord nbits w).mem.read s.ip.toNat = BitVec.ofNat 64 (w % 2 ^ nbits) := by
  unfold State.withFetchWord placeAtFetch
  rw [if_neg (not_lt.mpr h), wordsOf, placeWords, if_pos (toNat_of_nonneg h).2, placeWords_lower _ _ _ (by omega),
    storeCell_mem, Memory.read_write_same]

theorem decodeTableWord_eq_some {nbits w : Nat} {i : Instr} (h : decodeTableWord nbits w = some i) :
    decode true (BitVec.ofNat 64 (w % 2 ^ nbits)) = .ok i := by
  unfold decodeTableWord at h
  split at h
  · next hd => rw [hd, Option.some.inj h]
  · cases h

theorem decode_zero_illegal (strict : Bool) (i : Instr) : decode strict 0 ≠ .ok i := by
  intro h
  obtain ⟨-, hdigits, -⟩ := decode_ok_iff.mp h
  have := one_le_encodeNat i
  rw [show (0 : Word).toNat = 0 from rfl, Nat.zero_mod] at hdigits
  omega

/-- Settles O51: the placed word is what the next fetch reads, or 0 at or above the capacity. -/
theorem placedWordIsRunByTheNextStep : Obligations.PlacedWordIsRunByTheNextStep := by
  intro s nbits w i hs h0 hstrict hd
  obtain ⟨hip, hst, hcfg⟩ := withFetchWord_frame s nbits w
  have hstrict' : (s.withFetchWord nbits w).cfg.strictModeDigits = true := by rw [hcfg, hstrict]
  have h0' : 0 ≤ (s.withFetchWord nbits w).ip.toInt := by rw [hip]; exact h0
  constructor
  · intro hc
    refine stepRunsTheDecodedInstruction _ i (hst.trans hs) h0' ?_
    rw [hstrict', hip, wordAt_below (by rw [hcfg]; exact hc), withFetchWord_read h0, decodeTableWord_eq_some hd]
  · intro hc
    have hword : (s.withFetchWord nbits w).wordAt (s.withFetchWord nbits w).ip.toNat = 0 :=
      wordAt_above (by rw [hcfg, hip]; exact hc)
    have hf := fetchDecode_illegal h0' (by rw [hword]; exact decode_zero_illegal _)
    rw [step_of_fetchFault (hst.trans hs) hf, hword]

end Sys2Proof.Machine
end

section
/-! The invariant (spec/20_memory.md rule R54; 10_state.md rule R20): every step and every host move keeps it. -/

namespace Sys2Proof.Machine

/-- The invariant speaks of the store, the extent and the status; a change of anything else keeps it. -/
theorem State.Inv.of_sameStore {s t : State} (h : s.Inv) (hmem : t.mem = s.mem) (hext : t.extent = s.extent)
    (hst : t.st.Legal t.cfg) : t.Inv where
  memWf := hmem ▸ h.memWf
  zeroBeyondExtent a ha := by
    rw [hmem]
    exact h.zeroBeyondExtent a (hext ▸ ha)
  extentInRange := hext ▸ h.extentInRange
  statusLegal := hst

/-- A store to a word address keeps the invariant: the extent grows to hold the cell. -/
theorem State.Inv.storeCell {s : State} (h : s.Inv) {a : Nat} (ha : a < 2 ^ 63) (v : Word) :
    (storeCell s a v).Inv where
  memWf := Memory.write_wf h.memWf a v
  zeroBeyondExtent b hb := by
    rw [storeCell_extent_eq_max] at hb
    rw [storeCell_mem, Memory.read_write_other _ v (by omega), h.zeroBeyondExtent b (by omega)]
  extentInRange := by
    have := h.extentInRange
    rw [storeCell_extent_eq_max]
    omega
  statusLegal := h.statusLegal

/-- A fault entry keeps the invariant when the core can raise the fault. -/
theorem State.Inv.takeFault {s : State} (h : s.Inv) {f : Fault} (hf : f.Possible s.cfg) : (takeFault f s).Inv :=
  h.of_sameStore rfl rfl hf

/-- Every effect of an instruction keeps the invariant. -/
theorem Effect.keeps_inv {i : Instr} {s t : State} (e : Effect i s t) (h : s.Inv) : t.Inv := by
  cases e with
  | store v op ready inCap isAddress => exact (h.storeCell isAddress v).of_sameStore rfl rfl h.statusLegal
  | input x rest ready queue inCap isAddress => exact (h.storeCell isAddress x).of_sameStore rfl rfl h.statusLegal
  | output | jump | fallThrough | adjust => exact h.of_sameStore rfl rfl h.statusLegal
  | halt => exact h.of_sameStore rfl rfl trivial
  | fault f possible => exact h.takeFault possible

/-- Settles O38: the step enters a fault of the fetch or the decoder, or takes an effect. -/
theorem stepKeepsInv : Obligations.StepKeepsInv := by
  intro s t h hstep
  obtain ⟨-, ⟨f, -, possible, rfl⟩ | ⟨i, -, e⟩⟩ := step_next hstep
  · exact h.takeFault possible
  · exact e.keeps_inv h

/-- A step request leaves the state its step gives, or the state as it was. -/
theorem request_state (s : State) : (request s).1 = s ∨ step s = .next (request s).1 := by
  cases hs : s.st with
  | halted => exact .inl (by rw [request_of_stopped (step_halted hs)])
  | faulted f => exact .inl (by rw [request_of_stopped (step_faulted hs)])
  | running =>
    obtain ⟨t, ht, h⟩ := (statusMovesOnlyAsTheTableSays s).1 hs
    right
    rcases h with ⟨i, -, -, -, e⟩ | ⟨-, -, e⟩ | ⟨f, -, e⟩ <;> rw [e, ht]

/-- Settles O40: each move is a load, a store, a step, or leaves store and status alone. -/
theorem hostMovesKeepInv : Obligations.HostMovesKeepInv := by
  intro s mv h hload
  cases mv with
  | load program => exact load_inv s.cfg (hload program rfl)
  | pushIn x => exact h.of_sameStore rfl rfl h.statusLegal
  | patch a x =>
    rcases patch_cases a x s with ⟨⟨h0, -⟩, e⟩ | ⟨-, f, e, -⟩
    · rw [hostMove_patch_ok e]
      exact h.storeCell (toNat_of_nonneg h0).2 x
    · rw [hostMove_patch_error e]
      exact h
  | peek a => exact h
  | step =>
    rcases request_state s with e | e
    · rw [hostMove, e]
      exact h
    · exact stepKeepsInv s _ h e

end Sys2Proof.Machine
end

section
/-! Simulation of one core by another (spec/10_state.md rule R38; 93_implementation_defined.md, U4). `Matches opt R x y` says
that a computation `y` of the second core gives what `x` of the first gives, up to the relation `R`, unless `x` raises one
of the faults `opt`. The operations and then the instructions are shown to match once, for every relation between two cores
that is a `Simulation`; the two obligations are two such relations. -/

namespace Sys2Proof.Machine

section Matches

variable {α β γ δ : Type}

/-- The second computation gives the first one's result up to `R`, or its fault, unless that is one of `opt`. -/
def Matches (opt : Fault → Prop) (R : α → β → Prop) : Except Fault α → Except Fault β → Prop
  | .ok a, y => ∃ b, y = .ok b ∧ R a b
  | .error f, y => opt f ∨ y = .error f

theorem Matches.refl {opt : Fault → Prop} (x : Except Fault α) : Matches opt Eq x x := by
  cases x with
  | ok a => exact ⟨a, rfl, rfl⟩
  | error f => exact .inr rfl

/-- Matching computations in sequence match. -/
theorem Matches.bind {opt : Fault → Prop} {R : α → β → Prop} {Q : γ → δ → Prop} {x : Except Fault α}
    {y : Except Fault β} {k : α → Except Fault γ} {l : β → Except Fault δ} (h : Matches opt R x y)
    (hk : ∀ a b, R a b → Matches opt Q (k a) (l b)) : Matches opt Q (x >>= k) (y >>= l) := by
  cases x with
  | ok a =>
    obtain ⟨b, rfl, hab⟩ := h
    exact hk a b hab
  | error f =>
    rcases h with h | rfl
    · exact .inl h
    · exact .inr rfl

/-- The same where the first computation gives equal values. -/
theorem Matches.bind_eq {opt : Fault → Prop} {Q : γ → δ → Prop} {x y : Except Fault α} {k : α → Except Fault γ}
    {l : α → Except Fault δ} (h : Matches opt Eq x y) (hk : ∀ a, Matches opt Q (k a) (l a)) :
    Matches opt Q (x >>= k) (y >>= l) :=
  h.bind fun a _ hab => hab ▸ hk a

end Matches

/-! The resolver and the advance as computations in sequence. -/

theorem readParam_eq_bind (s : State) (k : Nat) :
    readParam s k = (add64 s.cfg s.ip (BitVec.ofNat 64 (1 + k)) >>= fun pos => memRead s pos) := by
  unfold readParam
  cases add64 s.cfg s.ip (BitVec.ofNat 64 (1 + k)) <;> rfl

theorem readByMode_relative_eq_bind (s : State) (p : Word) :
    readByMode s p .relative = (relativeAddress s p >>= fun a => memRead s a) := by
  unfold readByMode
  cases relativeAddress s p <;> rfl

theorem addressByMode_relative_eq_bind (s : State) (p : Word) :
    addressByMode s p .relative = (relativeAddress s p >>= fun a => checkAddress a) := by
  unfold addressByMode
  cases relativeAddress s p <;> rfl

theorem readOperand_eq_bind (s : State) (k : Nat) (m : Mode) :
    readOperand s k m = (readParam s k >>= fun p => readByMode s p m) := by
  unfold readOperand
  cases readParam s k <;> rfl

theorem writeOperand_eq_bind (s : State) (k : Nat) (m : WMode) :
    writeOperand s k m = (readParam s k >>= fun p => addressByMode s p m) := by
  unfold writeOperand
  cases readParam s k <;> rfl

theorem advance_eq_bind (s : State) (len : Nat) :
    advance s len = (add64 s.cfg s.ip (BitVec.ofNat 64 len) >>= fun a => .ok { s with ip := a }) := by
  unfold advance
  cases add64 s.cfg s.ip (BitVec.ofNat 64 len) <;> rfl

/-- What a relation between the states of two cores needs for their steps to match but for the faults `opt`. -/
structure Simulation (opt : Fault → Prop) (R : State → State → Prop) : Prop where
  ip : ∀ {s s'}, R s s' → s'.ip = s.ip
  rb : ∀ {s s'}, R s s' → s'.rb = s.rb
  st : ∀ {s s'}, R s s' → s'.st = s.st
  inq : ∀ {s s'}, R s s' → s'.inq = s.inq
  outq : ∀ {s s'}, R s s' → s'.outq = s.outq
  strict : ∀ {s s'}, R s s' → s'.cfg.strictModeDigits = s.cfg.strictModeDigits
  read : ∀ {s s'}, R s s' → ∀ a < 2 ^ 63, s'.wordAt a = s.wordAt a
  narrows : ∀ {s s'}, R s s' → ∀ z, Matches opt Eq (narrow s.cfg z) (narrow s'.cfg z)
  writes : ∀ {s s'}, R s s' → ∀ a v, Matches opt R (memWrite s a v) (memWrite s' a v)
  setIp : ∀ {s s'}, R s s' → ∀ a, R { s with ip := a } { s' with ip := a }
  setRb : ∀ {s s'}, R s s' → ∀ a, R { s with rb := a } { s' with rb := a }
  setSt : ∀ {s s'}, R s s' → ∀ q, R { s with st := q } { s' with st := q }
  setInq : ∀ {s s'}, R s s' → ∀ q, R { s with inq := q } { s' with inq := q }
  setOutq : ∀ {s s'}, R s s' → ∀ q, R { s with outq := q } { s' with outq := q }

/-- The outcomes of two cores: next states related by `R`, or an entry of a fault of `opt` in the first. -/
def NextMatches (opt : Fault → Prop) (R : State → State → Prop) (x y : Host.Outcome State Fault Refusal) : Prop :=
  ∃ t, x = .next t ∧ ((∃ f, opt f ∧ t.st = .faulted f) ∨ ∃ t', y = .next t' ∧ R t t')

section Simulation

variable {opt : Fault → Prop} {R : State → State → Prop} {s s' : State} (sim : Simulation opt R) (h : R s s')

include sim h

theorem Simulation.memRead_eq (a : Word) : memRead s' a = memRead s a := by
  by_cases ha : a.toInt < 0
  · rw [memRead_neg ha, memRead_neg ha]
  · rw [memRead_nonneg (not_lt.mp ha), memRead_nonneg (not_lt.mp ha),
      sim.read h _ (toNat_of_nonneg (not_lt.mp ha)).2]

theorem Simulation.fetchDecode_eq : fetchDecode s' = fetchDecode s := by
  unfold fetchDecode fetch
  rw [sim.ip h, sim.memRead_eq h, sim.strict h]

theorem Simulation.add64_matches (a b : Word) : Matches opt Eq (add64 s.cfg a b) (add64 s'.cfg a b) := sim.narrows h _

theorem Simulation.mul64_matches (a b : Word) : Matches opt Eq (mul64 s.cfg a b) (mul64 s'.cfg a b) := sim.narrows h _

theorem Simulation.memRead_matches (a : Word) : Matches opt Eq (memRead s a) (memRead s' a) := by
  rw [sim.memRead_eq h]
  exact .refl _

theorem Simulation.relativeAddress_matches (p : Word) : Matches opt Eq (relativeAddress s p) (relativeAddress s' p) := by
  unfold relativeAddress
  rw [sim.rb h]
  exact sim.add64_matches h _ _

theorem Simulation.readParam_matches (k : Nat) : Matches opt Eq (readParam s k) (readParam s' k) := by
  rw [readParam_eq_bind, readParam_eq_bind, sim.ip h]
  exact (sim.add64_matches h _ _).bind_eq fun pos => sim.memRead_matches h pos

theorem Simulation.readOperand_matches (k : Nat) (m : Mode) : Matches opt Eq (readOperand s k m) (readOperand s' k m) := by
  rw [readOperand_eq_bind, readOperand_eq_bind]
  refine (sim.readParam_matches h k).bind_eq fun p => ?_
  cases m with
  | position => exact sim.memRead_matches h p
  | immediate => exact .refl _
  | relative =>
    rw [readByMode_relative_eq_bind, readByMode_relative_eq_bind]
    exact (sim.relativeAddress_matches h p).bind_eq fun a => sim.memRead_matches h a

theorem Simulation.writeOperand_matches (k : Nat) (m : WMode) : Matches opt Eq (writeOperand s k m) (writeOperand s' k m) := by
  rw [writeOperand_eq_bind, writeOperand_eq_bind]
  refine (sim.readParam_matches h k).bind_eq fun p => ?_
  cases m with
  | position => exact .refl _
  | relative =>
    rw [addressByMode_relative_eq_bind, addressByMode_relative_eq_bind]
    exact (sim.relativeAddress_matches h p).bind_eq fun a => .refl _

theorem Simulation.advance_matches (len : Nat) : Matches opt R (advance s len) (advance s' len) := by
  rw [advance_eq_bind, advance_eq_bind, sim.ip h]
  exact (sim.add64_matches h _ _).bind_eq fun a => ⟨_, rfl, sim.setIp h a⟩

/-- The end of a step: a fault that is not one of `opt` is entered in both. -/
theorem Simulation.commit_matches {x y : Except Fault State} (hxy : Matches opt R x y) :
    NextMatches opt R (commit s x) (commit s' y) := by
  cases x with
  | ok t =>
    obtain ⟨t', rfl, ht⟩ := hxy
    exact ⟨t, rfl, .inr ⟨t', rfl, ht⟩⟩
  | error f =>
    refine ⟨takeFault f s, rfl, ?_⟩
    rcases hxy with hf | rfl
    · exact .inl ⟨f, hf, rfl⟩
    · exact .inr ⟨_, rfl, sim.setSt h _⟩

/-! The instructions. -/

theorem Simulation.computeAndStore_matches {f : Config → Word → Word → Except Fault Word}
    (hf : ∀ x y, Matches opt Eq (f s.cfg x y) (f s'.cfg x y)) (a b : Mode) (dst : WMode) :
    NextMatches opt R (computeAndStore f a b dst s) (computeAndStore f a b dst s') := by
  refine sim.commit_matches h ?_
  refine (sim.readOperand_matches h 0 a).bind_eq fun x => ?_
  refine (sim.readOperand_matches h 1 b).bind_eq fun y => ?_
  refine (sim.writeOperand_matches h 2 dst).bind_eq fun d => ?_
  refine (hf x y).bind_eq fun r => ?_
  exact (sim.writes h d r).bind fun t t' ht => sim.advance_matches ht 4

theorem Simulation.popInput_matches :
    Matches opt (fun p q => q.1 = p.1 ∧ R p.2 q.2) (popInput s) (popInput s') := by
  unfold popInput
  rw [sim.inq h]
  cases s.inq with
  | nil => exact .inr rfl
  | cons x rest => exact ⟨_, rfl, rfl, sim.setInq h rest⟩

theorem Simulation.execInput_matches (dst : WMode) : NextMatches opt R (execInput dst s) (execInput dst s') := by
  refine sim.commit_matches h ?_
  refine (sim.writeOperand_matches h 0 dst).bind_eq fun d => ?_
  refine (sim.popInput_matches h).bind fun p q ⟨hx, hpq⟩ => ?_
  rw [hx]
  exact (sim.writes hpq d p.1).bind fun t t' ht => sim.advance_matches ht 2

theorem Simulation.execOutput_matches (src : Mode) : NextMatches opt R (execOutput src s) (execOutput src s') := by
  refine sim.commit_matches h ?_
  refine (sim.readOperand_matches h 0 src).bind_eq fun x => ?_
  have hpush : R (pushOutput s x) (pushOutput s' x) := by
    unfold pushOutput
    rw [sim.outq h]
    exact sim.setOutq h _
  exact sim.advance_matches hpush 2

theorem Simulation.jumpWhen_matches (test : Word → Bool) (cond target : Mode) :
    NextMatches opt R (jumpWhen test cond target s) (jumpWhen test cond target s') := by
  refine sim.commit_matches h ?_
  refine (sim.readOperand_matches h 0 cond).bind_eq fun c => ?_
  refine (sim.readOperand_matches h 1 target).bind_eq fun t => ?_
  split
  · exact ⟨_, rfl, sim.setIp h t⟩
  · exact sim.advance_matches h 3

theorem Simulation.execAdjustRelativeBase_matches (delta : Mode) :
    NextMatches opt R (execAdjustRelativeBase delta s) (execAdjustRelativeBase delta s') := by
  refine sim.commit_matches h ?_
  refine (sim.readOperand_matches h 0 delta).bind_eq fun d => ?_
  rw [sim.rb h]
  exact (sim.add64_matches h s.rb d).bind_eq fun r => sim.advance_matches (sim.setRb h r) 2

theorem Simulation.exec_matches (i : Instr) : NextMatches opt R (exec i s) (exec i s') := by
  cases i with
  | add a b dst => exact sim.computeAndStore_matches h (sim.add64_matches h) a b dst
  | multiply a b dst => exact sim.computeAndStore_matches h (sim.mul64_matches h) a b dst
  | lessThan a b dst | equals a b dst => exact sim.computeAndStore_matches h (fun _ _ => .refl _) a b dst
  | input dst => exact sim.execInput_matches h dst
  | output src => exact sim.execOutput_matches h src
  | jumpIfTrue cond target | jumpIfFalse cond target => exact sim.jumpWhen_matches h _ cond target
  | adjustRelativeBase delta => exact sim.execAdjustRelativeBase_matches h delta
  | halt => exact ⟨_, rfl, .inr ⟨_, rfl, sim.setSt h _⟩⟩

/-- Related cores take matching steps when they run. -/
theorem Simulation.step_matches (hs : s.st = .running) : NextMatches opt R (step s) (step s') := by
  have hs' : s'.st = .running := (sim.st h).trans hs
  cases hf : fetchDecode s with
  | error f =>
    rw [step_of_fetchFault hs hf, step_of_fetchFault hs' ((sim.fetchDecode_eq h).trans hf)]
    exact ⟨_, rfl, .inr ⟨_, rfl, sim.setSt h _⟩⟩
  | ok i =>
    rw [step_of_decoded hs hf, step_of_decoded hs' ((sim.fetchDecode_eq h).trans hf)]
    exact sim.exec_matches h i

end Simulation

end Sys2Proof.Machine
end

section
/-! `extent` is hidden (spec/10_state.md rule R38): agreement on everything else is a simulation that excepts no fault. -/

namespace Sys2Proof.Machine

theorem storeCell_eqButExtent {s t : State} (h : s.EqButExtent t) (a : Nat) (v : Word) :
    (storeCell s a v).EqButExtent (storeCell t a v) :=
  congrArg (fun u : State => { u with mem := u.mem.write a v }) h

theorem memWrite_eqButExtent {s t : State} (h : s.EqButExtent t) (a v : Word) :
    Matches (fun _ => False) State.EqButExtent (memWrite s a v) (memWrite t a v) := by
  have hcfg : t.cfg = s.cfg := (congrArg State.cfg h).symm
  rcases memWrite_cases s a v with ⟨hneg, e⟩ | ⟨h0, hc, e⟩ | ⟨h0, hc, e⟩ <;> rw [e]
  · exact .inr (memWrite_neg v hneg)
  · exact .inr (memWrite_above v h0 (by rw [hcfg]; exact hc))
  · exact ⟨_, memWrite_accepted v ⟨h0, by rw [hcfg]; exact hc⟩, storeCell_eqButExtent h _ v⟩

theorem eqButExtent_simulation : Simulation (fun _ => False) State.EqButExtent where
  ip h := (congrArg State.ip h).symm
  rb h := (congrArg State.rb h).symm
  st h := (congrArg State.st h).symm
  inq h := (congrArg State.inq h).symm
  outq h := (congrArg State.outq h).symm
  strict h := (congrArg (fun u => u.cfg.strictModeDigits) h).symm
  read h a _ := (congrArg (fun u => u.wordAt a) h).symm
  narrows {s t} h z := by
    rw [show t.cfg = s.cfg from (congrArg State.cfg h).symm]
    exact .refl _
  writes := memWrite_eqButExtent
  setIp h a := congrArg (fun u : State => { u with ip := a }) h
  setRb h a := congrArg (fun u : State => { u with rb := a }) h
  setSt h q := congrArg (fun u : State => { u with st := q }) h
  setInq h q := congrArg (fun u : State => { u with inq := q }) h
  setOutq h q := congrArg (fun u : State => { u with outq := q }) h

/-- Where no fault is excepted, matching outcomes are related next states. -/
theorem NextMatches.of_noException {R : State → State → Prop} {x y : Host.Outcome State Fault Refusal}
    (h : NextMatches (fun _ => False) R x y) : ∃ t t', x = .next t ∧ y = .next t' ∧ R t t' := by
  obtain ⟨t, hx, ⟨f, hf, -⟩ | ⟨t', hy, ht⟩⟩ := h
  · exact hf.elim
  · exact ⟨t, t', hx, hy, ht⟩

/-- The answer to a step request that gives a next state is a function of its status and of the instruction fetched. -/
theorem request_answer_congr {s s' t t' : State} (h : step s = .next t) (h' : step s' = .next t') (hst : t'.st = t.st)
    (hf : fetchDecode s' = fetchDecode s) : (request s').2 = (request s).2 := by
  simp only [request, h, h', hst, hf]
  split <;> rfl

/-- Settles O42: `eqButExtent_simulation` for a Running core; an ended core answers by its status. -/
theorem extentIsUnobservable : Obligations.ExtentIsUnobservable := by
  intro s t h
  have hst := eqButExtent_simulation.st h
  refine ⟨?_, ?_, fun a => (eqButExtent_simulation.memRead_eq h a).symm⟩
  · cases hs : s.st with
    | halted =>
      rw [step_halted hs, step_halted (hst.trans hs)]
      rfl
    | faulted f =>
      rw [step_faulted hs, step_faulted (hst.trans hs)]
      rfl
    | running =>
      obtain ⟨u, u', hu, hu', he⟩ := (eqButExtent_simulation.step_matches h hs).of_noException
      rw [hu, hu']
      exact he
  · cases hs : s.st with
    | halted => rw [request_of_stopped (step_halted hs), request_of_stopped (step_halted (hst.trans hs))]
    | faulted f => rw [request_of_stopped (step_faulted hs), request_of_stopped (step_faulted (hst.trans hs))]
    | running =>
      obtain ⟨u, u', hu, hu', he⟩ := (eqButExtent_simulation.step_matches h hs).of_noException
      exact (request_answer_congr hu hu' (eqButExtent_simulation.st he) (eqButExtent_simulation.fetchDecode_eq h)).symm

end Sys2Proof.Machine
end

section
/-! The options `OVERFLOW_MODE = fault` and a finite `MEM_CAPACITY` only add faults (spec/93_implementation_defined.md, U4;
20_memory.md rule R56): the standard machine simulates a core under the options, the two option faults excepted. -/

namespace Sys2Proof.Machine

/-- The faults that the options add (60_exceptions.md R206, R207). -/
def Fault.IsOption (f : Fault) : Prop := f = .arithmeticOverflow ∨ ∃ a, f = .capacityExceeded a

theorem narrow_matches_standard (c : Config) (z : Int) :
    Matches Fault.IsOption Eq (narrow c z) (narrow Config.standard z) := by
  rcases narrow_cases c z with ⟨-, e⟩ | ⟨-, -, e⟩ <;> rw [e]
  · exact ⟨_, narrow_ok (.inl rfl), rfl⟩
  · exact .inl (.inl rfl)

/-- A write matches the standard machine's when the store does. -/
theorem memWrite_matches_standard {R : State → State → Prop} {s s' : State} (hcfg : s'.cfg = Config.standard)
    (hstore : ∀ a v, a < s.cfg.memCapacity → R (storeCell s a v) (storeCell s' a v)) (a v : Word) :
    Matches Fault.IsOption R (memWrite s a v) (memWrite s' a v) := by
  rcases memWrite_cases s a v with ⟨hneg, e⟩ | ⟨h0, hc, e⟩ | ⟨h0, hc, e⟩ <;> rw [e]
  · exact .inr (memWrite_neg v hneg)
  · exact .inl (.inr ⟨a, rfl⟩)
  · exact ⟨_, memWrite_accepted v (acceptsPatch_of_standardCapacity h0 (by rw [hcfg])), hstore _ v hc⟩

/-! The store cut down to the cells that the core can read. -/

/-- The state on the standard machine of a core with a canonical store. -/
def CutDown (s s' : State) : Prop := s.cfg.strictModeDigits = true ∧ s.mem.wf ∧ s' = s.asStandard

theorem asStandard_wordAt (s : State) {a : Nat} (ha : a < 2 ^ 63) : s.asStandard.wordAt a = s.wordAt a := by
  rw [wordAt_below (s := s.asStandard) ha]
  exact Memory.read_below _ _ _

/-- A write below the cut is a write of the cut store. -/
theorem Memory.below_write {m : Memory} (h : m.wf) {n a : Nat} (ha : a < n) (v : Word) :
    (m.write a v).below n = (m.below n).write a v := by
  refine Memory.ext_read (Memory.below_wf (Memory.write_wf h a v) n) (Memory.write_wf (Memory.below_wf h n) a v)
    fun b => ?_
  rw [Memory.read_below, Memory.read_write, Memory.read_write, Memory.read_below]
  by_cases hb : b = a
  · rw [if_pos hb, if_pos hb, if_neg (by omega)]
  · rw [if_neg hb, if_neg hb]

theorem CutDown.storeCell {s s' : State} (h : CutDown s s') (a : Nat) (v : Word) (ha : a < s.cfg.memCapacity) :
    CutDown (storeCell s a v) (storeCell s' a v) := by
  obtain ⟨hs, hwf, rfl⟩ := h
  refine ⟨hs, Memory.write_wf hwf a v, ?_⟩
  unfold State.asStandard
  rw [storeCell_cfg, storeCell_mem, Memory.below_write hwf ha]
  rfl

theorem CutDown.standard {s s' : State} (h : CutDown s s') : s'.cfg = Config.standard := by
  obtain ⟨-, -, rfl⟩ := h
  rfl

theorem cutDown_simulation : Simulation Fault.IsOption CutDown where
  ip := by rintro s _ ⟨-, -, rfl⟩; rfl
  rb := by rintro s _ ⟨-, -, rfl⟩; rfl
  st := by rintro s _ ⟨-, -, rfl⟩; rfl
  inq := by rintro s _ ⟨-, -, rfl⟩; rfl
  outq := by rintro s _ ⟨-, -, rfl⟩; rfl
  strict := by rintro s _ ⟨hs, -, rfl⟩; exact hs.symm
  read := by rintro s _ ⟨-, -, rfl⟩ a ha; exact asStandard_wordAt s ha
  narrows := by rintro s _ ⟨-, -, rfl⟩ z; exact narrow_matches_standard s.cfg z
  writes h := memWrite_matches_standard h.standard h.storeCell
  setIp := by rintro s _ ⟨hs, hwf, rfl⟩ a; exact ⟨hs, hwf, rfl⟩
  setRb := by rintro s _ ⟨hs, hwf, rfl⟩ a; exact ⟨hs, hwf, rfl⟩
  setSt := by rintro s _ ⟨hs, hwf, rfl⟩ q; exact ⟨hs, hwf, rfl⟩
  setInq := by rintro s _ ⟨hs, hwf, rfl⟩ q; exact ⟨hs, hwf, rfl⟩
  setOutq := by rintro s _ ⟨hs, hwf, rfl⟩ q; exact ⟨hs, hwf, rfl⟩

/-! The whole store, where the cells that the core cannot read hold 0. -/

/-- The same state on the standard machine. -/
def SameStore (s s' : State) : Prop :=
  s.cfg.strictModeDigits = true ∧ (∀ a, s.cfg.memCapacity ≤ a → s.mem.read a = 0) ∧
    s' = { s with cfg := Config.standard }

theorem SameStore.wordAt {s s' : State} (h : SameStore s s') (a : Nat) (ha : a < 2 ^ 63) : s'.wordAt a = s.wordAt a := by
  obtain ⟨-, hzero, rfl⟩ := h
  rw [wordAt_below (s := { s with cfg := Config.standard }) ha]
  rcases Nat.lt_or_ge a s.cfg.memCapacity with hc | hc
  · rw [wordAt_below hc]
  · rw [wordAt_above hc]
    exact hzero a hc

theorem SameStore.storeCell {s s' : State} (h : SameStore s s') (a : Nat) (v : Word) (ha : a < s.cfg.memCapacity) :
    SameStore (storeCell s a v) (storeCell s' a v) := by
  obtain ⟨hs, hzero, rfl⟩ := h
  refine ⟨hs, fun b hb => ?_, rfl⟩
  rw [storeCell_cfg] at hb
  rw [storeCell_mem, Memory.read_write_other _ v (by omega), hzero b hb]

theorem SameStore.standard {s s' : State} (h : SameStore s s') : s'.cfg = Config.standard := by
  obtain ⟨-, -, rfl⟩ := h
  rfl

theorem sameStore_simulation : Simulation Fault.IsOption SameStore where
  ip := by rintro s _ ⟨-, -, rfl⟩; rfl
  rb := by rintro s _ ⟨-, -, rfl⟩; rfl
  st := by rintro s _ ⟨-, -, rfl⟩; rfl
  inq := by rintro s _ ⟨-, -, rfl⟩; rfl
  outq := by rintro s _ ⟨-, -, rfl⟩; rfl
  strict := by rintro s _ ⟨hs, -, rfl⟩; exact hs.symm
  read := SameStore.wordAt
  narrows := by rintro s _ ⟨-, -, rfl⟩ z; exact narrow_matches_standard s.cfg z
  writes h := memWrite_matches_standard h.standard h.storeCell
  setIp := by rintro s _ ⟨hs, hzero, rfl⟩ a; exact ⟨hs, hzero, rfl⟩
  setRb := by rintro s _ ⟨hs, hzero, rfl⟩ a; exact ⟨hs, hzero, rfl⟩
  setSt := by rintro s _ ⟨hs, hzero, rfl⟩ q; exact ⟨hs, hzero, rfl⟩
  setInq := by rintro s _ ⟨hs, hzero, rfl⟩ q; exact ⟨hs, hzero, rfl⟩
  setOutq := by rintro s _ ⟨hs, hzero, rfl⟩ q; exact ⟨hs, hzero, rfl⟩

/-- A step that enters no excepted fault is taken by the second core too. -/
theorem Simulation.step_of_noException {opt : Fault → Prop} {R : State → State → Prop} {s s' t : State}
    (sim : Simulation opt R) (h : R s s') (hstep : step s = .next t)
    (hopt : ∀ f, t.st = .faulted f → ¬ opt f) : ∃ t', step s' = .next t' ∧ R t t' := by
  obtain ⟨u, hu, hex⟩ := sim.step_matches h (step_next hstep).1
  obtain rfl : t = u := Host.Outcome.next.inj (hstep.symm.trans hu)
  rcases hex with ⟨f, hf, hst⟩ | hex
  · exact absurd hf (hopt f hst)
  · exact hex

/-- Settles O43: the two simulations, one for each clause. -/
theorem optionsOnlyAddFaults : Obligations.OptionsOnlyAddFaults := by
  intro s t hstrict hstep hnone
  have hopt : ∀ f, t.st = .faulted f → ¬ f.IsOption := by
    intro f hf hoption
    obtain ⟨hover, hcap⟩ := hnone f hf
    rcases hoption with rfl | ⟨a, rfl⟩
    · exact hover rfl
    · exact hcap a rfl
  refine ⟨fun hwf => ?_, fun hzero => ?_⟩
  · obtain ⟨t', ht', -, -, rfl⟩ := cutDown_simulation.step_of_noException ⟨hstrict, hwf, rfl⟩ hstep hopt
    exact ht'
  · obtain ⟨t', ht', -, -, rfl⟩ := sameStore_simulation.step_of_noException ⟨hstrict, hzero, rfl⟩ hstep hopt
    exact ht'

end Sys2Proof.Machine
end

section
/-! The run controls (spec/70_reset_and_hazards.md rules R247 to R251, R258). `Run` and `RunToOut` are one loop with two ends
(`RequestLoop`): what each returns is the answer to the first request that ends it. -/

namespace Sys2Proof.Machine

/-! One request, by its answer. -/

theorem request_refused (s : State) (r : Refusal) : (request s).2 ≠ .refused r := by
  rcases request_cases s with ⟨f, t, e, -⟩ | ⟨-, -, e⟩ | ⟨m, v, t, -, -, e, -⟩ | ⟨i, t, -, -, e, -⟩ <;> simp [e]

theorem request_fault {s : State} {f : Fault} (h : (request s).2 = .fault f) :
    (request s).1.outq = s.outq ∧
      ((request s).1.st = .faulted f ∨ (f = .alreadyHalted ∧ s.st = .halted ∧ (request s).1 = s)) := by
  rcases request_cases s with ⟨g, t, e, hout, ht⟩ | ⟨-, -, e⟩ | ⟨m, v, t, -, -, e, -⟩ | ⟨i, t, -, -, e, -⟩ <;>
    rw [e] at h ⊢
  case inl =>
    obtain rfl := Answer.fault.inj h
    refine ⟨hout, ?_⟩
    rcases ht with ⟨-, rfl⟩ | ⟨hs, rfl⟩ | hhalted
    · exact .inl rfl
    · exact .inl hs
    · exact .inr hhalted
  all_goals cases h

theorem request_halt {s : State} (h : (request s).2 = .done .halt) : (request s).1 = { s with st := .halted } := by
  rcases request_cases s with ⟨g, t, e, -⟩ | ⟨-, -, e⟩ | ⟨m, v, t, -, -, e, -⟩ | ⟨i, t, -, -, e, hne, -⟩ <;>
    rw [e] at h ⊢
  case inr.inr.inr => exact absurd (Answer.done.inj h) hne
  all_goals cases h

theorem request_output {s : State} {m : Mode} (h : (request s).2 = .done (.output m)) :
    ∃ v, (request s).1.outq = s.outq ++ [v] ∧ (request s).1.st = .running := by
  rcases request_cases s with ⟨g, t, e, -⟩ | ⟨-, -, e⟩ | ⟨m', v, t, -, -, e, hout, hst⟩ | ⟨i, t, -, -, e, -, hno, -⟩ <;>
    rw [e] at h ⊢
  case inr.inr.inl => exact ⟨v, hout, hst⟩
  case inr.inr.inr => exact absurd (Answer.done.inj h) (hno m)
  all_goals cases h

theorem request_of_not_endsRunToOut {s : State} (h : endsRunToOut (request s).2 = false) :
    (request s).1.st = .running ∧ (request s).1.outq = s.outq := by
  rcases request_cases s with ⟨g, t, e, -⟩ | ⟨-, -, e⟩ | ⟨m', v, t, -, -, e, -⟩ | ⟨i, t, -, -, e, -, -, hout, hst⟩ <;>
    rw [e] at h ⊢
  case inr.inr.inr => exact ⟨hst, hout⟩
  all_goals cases h

theorem request_of_not_endsRun {s : State} (h : endsRun (request s).2 = false) : (request s).1.st = .running := by
  rcases request_cases s with ⟨g, t, e, -⟩ | ⟨-, -, e⟩ | ⟨m', v, t, -, -, e, -, hst⟩ | ⟨i, t, -, -, e, -, -, -, hst⟩ <;>
    rw [e] at h ⊢
  case inr.inr.inl | inr.inr.inr => exact hst
  all_goals cases h

/-- The answers that end `Run` end `RunToOut`. -/
theorem endsRun_of_endsRunToOut {a : Answer} (h : endsRunToOut a = false) : endsRun a = false := by
  cases a with
  | done i =>
    cases i with
    | output m | halt => cases h
    | _ => rfl
  | fault f => cases h
  | refused r => rfl

/-- The answers that end `Run`, of those a request gives. -/
theorem endsRun_eq_true {a : Answer} : endsRun a = true ↔ a = .done .halt ∨ ∃ f, a = .fault f := by
  cases a with
  | done i => cases i <;> simp [endsRun]
  | fault f => simp [endsRun]
  | refused r => simp [endsRun]

/-- The answers that end `RunToOut`. -/
theorem endsRunToOut_eq_true {a : Answer} :
    endsRunToOut a = true ↔ (∃ m, a = .done (.output m)) ∨ a = .done .halt ∨ ∃ f, a = .fault f := by
  cases a with
  | done i => cases i <;> simp [endsRunToOut]
  | fault f => simp [endsRunToOut]
  | refused r => simp [endsRunToOut]

/-- A request appends to `outq` or leaves it. -/
theorem request_outq (s : State) : s.outq <+: (request s).1.outq := by
  rcases request_cases s with ⟨g, t, e, hout, -⟩ | ⟨-, -, e⟩ | ⟨m, v, t, -, -, e, hout, -⟩ | ⟨i, t, -, -, e, -, -, hout, -⟩
  · simp [e, hout]
  · simp [e]
  · simp [e, hout]
  · simp [e, hout]

/-! Sequences of requests. -/

theorem afterRequests_succ_last (k : Nat) (s : State) :
    afterRequests (k + 1) s = (request (afterRequests k s)).1 := by
  induction k generalizing s with
  | zero => rfl
  | succ k ih => rw [afterRequests_succ, ih, ← afterRequests_succ]

theorem afterRequests_outq (k : Nat) (s : State) : s.outq <+: (afterRequests k s).outq := by
  induction k generalizing s with
  | zero => exact List.prefix_rfl
  | succ k ih => exact (request_outq s).trans (ih _)

/-- While `Run` goes on, the core is Running, but for the state it began in. -/
theorem afterRequests_of_not_endsRun {k : Nat} {s : State} (h : ∀ j < k, endsRun (nthAnswer j s) = false) :
    afterRequests k s = s ∨ (afterRequests k s).st = .running := by
  cases k with
  | zero => exact .inl rfl
  | succ k =>
    rw [afterRequests_succ_last]
    exact .inr (request_of_not_endsRun (h k (Nat.lt_succ_self k)))

/-- While `RunToOut` goes on, nothing is output. -/
theorem afterRequests_of_not_endsRunToOut {k : Nat} {s : State} (h : ∀ j < k, endsRunToOut (nthAnswer j s) = false) :
    (afterRequests k s).outq = s.outq := by
  induction k with
  | zero => rfl
  | succ k ih =>
    rw [afterRequests_succ_last, (request_of_not_endsRunToOut (h k (Nat.lt_succ_self k))).2,
      ih fun j hj => h j (by omega)]

theorem firstAnswer_or_none (ends : Answer → Bool) (n : Nat) (s : State) :
    (∃ k < n, FirstAnswer ends k s) ∨ ∀ k < n, ends (nthAnswer k s) = false := by
  induction n with
  | zero => exact .inr fun k hk => absurd hk (Nat.not_lt_zero k)
  | succ n ih =>
    rcases ih with ⟨k, hk, first⟩ | none
    · exact .inl ⟨k, by omega, first⟩
    · cases hn : ends (nthAnswer n s) with
      | true => exact .inl ⟨n, Nat.lt_succ_self n, hn, none⟩
      | false =>
        refine .inr fun k hk => ?_
        rcases Nat.lt_succ_iff_lt_or_eq.mp hk with hlt | rfl
        · exact none k hlt
        · exact hn

/-! The loop. -/

/-- `loop` issues requests up to the first answer that `ends` it, and returns `result` of it; `unfinished` when the number
of requests is used up. -/
structure RequestLoop {α : Type} (ends : Answer → Bool) (result : State → Answer → RunResult α)
    (loop : Nat → State → State × RunResult α) : Prop where
  zero : ∀ s, loop 0 s = (s, .unfinished)
  stop : ∀ n s, ends (request s).2 = true → loop (n + 1) s = ((request s).1, result (request s).1 (request s).2)
  next : ∀ n s, ends (request s).2 = false → loop (n + 1) s = loop n (request s).1

section RequestLoop

variable {α : Type} {ends : Answer → Bool} {result : State → Answer → RunResult α}
  {loop : Nat → State → State × RunResult α} (hl : RequestLoop ends result loop)

include hl

/-- Requests that do not end the loop leave it to the remaining ones. -/
theorem RequestLoop.skip {k : Nat} {s : State} (h : ∀ j < k, ends (nthAnswer j s) = false) (m : Nat) :
    loop (k + m) s = loop m (afterRequests k s) := by
  induction k generalizing s with
  | zero => rw [Nat.zero_add, afterRequests_zero]
  | succ k ih =>
    rw [Nat.add_right_comm, hl.next _ s (h 0 (Nat.succ_pos k)), afterRequests_succ]
    exact ih fun j hj => h (j + 1) (by omega)

theorem RequestLoop.at_first {n k : Nat} (hk : k < n) {s : State} (h : FirstAnswer ends k s) :
    loop n s = (afterRequests (k + 1) s, result (afterRequests (k + 1) s) (nthAnswer k s)) := by
  obtain ⟨m, rfl⟩ : ∃ m, n = k + (m + 1) := ⟨n - k - 1, by omega⟩
  rw [hl.skip h.2, hl.stop _ _ h.1, afterRequests_succ_last]
  rfl

theorem RequestLoop.unfinished {n : Nat} {s : State} (h : ∀ k < n, ends (nthAnswer k s) = false) :
    loop n s = (afterRequests n s, .unfinished) := by
  rw [← Nat.add_zero n, hl.skip h, hl.zero, Nat.add_zero]

/-- A finished loop met its first ending answer. -/
theorem RequestLoop.finished {n : Nat} {s t : State} {r : RunResult α} (h : loop n s = (t, r)) (hr : r ≠ .unfinished) :
    ∃ k < n, FirstAnswer ends k s ∧ t = afterRequests (k + 1) s ∧ r = result t (nthAnswer k s) := by
  rcases firstAnswer_or_none ends n s with ⟨k, hk, first⟩ | none
  · obtain ⟨rfl, rfl⟩ := Prod.mk.inj (h.symm.trans (hl.at_first hk first))
    exact ⟨k, hk, first, rfl, rfl⟩
  · exact absurd (Prod.mk.inj (h.symm.trans (hl.unfinished none))).2 hr

/-- A finished loop gives the same with more requests. -/
theorem RequestLoop.mono {m n : Nat} (hmn : m ≤ n) {s t : State} {r : RunResult α} (h : loop m s = (t, r))
    (hr : r ≠ .unfinished) : loop n s = (t, r) := by
  obtain ⟨k, hk, first, rfl, rfl⟩ := hl.finished h hr
  exact hl.at_first (by omega) first

end RequestLoop

/-- What `Run` returns for an answer that ends it (R248). -/
def runResult (t : State) : Answer → RunResult (List Word)
  | .done _ => .ok t.outq
  | .fault f => .err f
  | .refused _ => .unfinished

/-- What `RunToOut` returns for an answer that ends it (R249). -/
def runToOutResult (t : State) : Answer → RunResult (Option Word)
  | .done (.output _) => .ok t.outq.getLast?
  | .done _ => .ok none
  | .fault f => .err f
  | .refused _ => .unfinished

theorem run_halt {n : Nat} {s t : State} (h : request s = (t, .done .halt)) : run (n + 1) s = (t, .ok t.outq) := by
  simp only [run, h]

theorem run_fault {n : Nat} {s t : State} {f : Fault} (h : request s = (t, .fault f)) : run (n + 1) s = (t, .err f) := by
  simp only [run, h]

theorem runToOut_output {n : Nat} {s t : State} {m : Mode} (h : request s = (t, .done (.output m))) :
    runToOut (n + 1) s = (t, .ok t.outq.getLast?) := by
  simp only [runToOut, h]

theorem runToOut_halt {n : Nat} {s t : State} (h : request s = (t, .done .halt)) :
    runToOut (n + 1) s = (t, .ok none) := by
  simp only [runToOut, h]

theorem runToOut_fault {n : Nat} {s t : State} {f : Fault} (h : request s = (t, .fault f)) :
    runToOut (n + 1) s = (t, .err f) := by
  simp only [runToOut, h]

theorem run_requestLoop : RequestLoop endsRun runResult run where
  zero _ := rfl
  stop n s h := by
    rcases endsRun_eq_true.mp h with ha | ⟨f, ha⟩ <;> rw [ha]
    · exact run_halt (Prod.ext rfl ha)
    · exact run_fault (Prod.ext rfl ha)
  next n s h := by
    cases ha : (request s).2 with
    | done i => exact run_continues (Prod.ext rfl ha) (by rintro rfl; rw [ha] at h; cases h)
    | fault f =>
      rw [ha] at h
      cases h
    | refused r => exact absurd ha (request_refused s r)

theorem runToOut_requestLoop : RequestLoop endsRunToOut runToOutResult runToOut where
  zero _ := rfl
  stop n s h := by
    rcases endsRunToOut_eq_true.mp h with ⟨m, ha⟩ | ha | ⟨f, ha⟩ <;> rw [ha]
    · exact runToOut_output (Prod.ext rfl ha)
    · exact runToOut_halt (Prod.ext rfl ha)
    · exact runToOut_fault (Prod.ext rfl ha)
  next n s h := by
    cases ha : (request s).2 with
    | done i =>
      exact runToOut_continues (Prod.ext rfl ha) (by rintro rfl; rw [ha] at h; cases h)
        (by rintro m rfl; rw [ha] at h; cases h)
    | fault f =>
      rw [ha] at h
      cases h
    | refused r => exact absurd ha (request_refused s r)

/-! What a finished run control returned. -/

theorem request_of_halted {s : State} (h : s.st = .halted) : request s = (s, .fault .alreadyHalted) :=
  request_of_stopped (step_halted h)

/-- The core after an ending fault, for either loop: Faulted with it, or Halted from the start (D14). -/
theorem fault_at_end {k : Nat} {s : State} {f : Fault} (hk : ∀ j < k, endsRun (nthAnswer j s) = false)
    (ha : nthAnswer k s = .fault f) :
    (afterRequests (k + 1) s).outq = (afterRequests k s).outq ∧
      ((afterRequests (k + 1) s).st = .faulted f ∨
        (f = .alreadyHalted ∧ (afterRequests (k + 1) s).st = .halted ∧ afterRequests (k + 1) s = s)) := by
  obtain ⟨hout, hst⟩ := request_fault ha
  rw [afterRequests_succ_last]
  refine ⟨hout, hst.imp_right ?_⟩
  rintro ⟨hf, hhalted, hsame⟩
  rw [hsame]
  rcases afterRequests_of_not_endsRun hk with h | h
  · exact ⟨hf, hhalted, h⟩
  · rw [h] at hhalted
    cases hhalted

/-- A finished `Run`: at the first ending answer, Halted with all of `outq`, or that fault. -/
theorem run_finished {n : Nat} {s t : State} {r : RunResult (List Word)} (h : run n s = (t, r)) (hr : r ≠ .unfinished) :
    ∃ k < n, FirstAnswer endsRun k s ∧ t = afterRequests (k + 1) s ∧
      ((r = .ok t.outq ∧ t.st = .halted ∧ s.outq <+: t.outq) ∨
        ∃ f, r = .err f ∧ (t.st = .faulted f ∨ (f = .alreadyHalted ∧ t.st = .halted ∧ t = s))) := by
  obtain ⟨k, hk, first, rfl, rfl⟩ := run_requestLoop.finished h hr
  refine ⟨k, hk, first, rfl, ?_⟩
  rcases endsRun_eq_true.mp first.1 with ha | ⟨f, ha⟩
  · have hst : (afterRequests (k + 1) s).st = .halted := by rw [afterRequests_succ_last, request_halt ha]
    exact .inl ⟨by rw [ha, runResult], hst, afterRequests_outq (k + 1) s⟩
  · obtain ⟨-, hst⟩ := fault_at_end first.2 ha
    exact .inr ⟨f, by rw [ha, runResult], hst⟩

/-- A `Run` that answers outputs ends Halted with all of `outq`, which it has only extended. -/
theorem run_ok {n : Nat} {s t : State} {outs : List Word} (h : run n s = (t, .ok outs)) :
    t.st = .halted ∧ outs = t.outq ∧ s.outq <+: outs := by
  obtain ⟨-, -, -, -, ⟨ho, hst, hpre⟩ | ⟨f, hf, -⟩⟩ := run_finished h (by simp)
  · obtain rfl := RunResult.ok.inj ho
    exact ⟨hst, rfl, hpre⟩
  · cases hf

/-- A `Run` that answers a fault ends Faulted with it, or was Halted from the start. -/
theorem run_err {n : Nat} {s t : State} {f : Fault} (h : run n s = (t, .err f)) :
    t.st = .faulted f ∨ (f = .alreadyHalted ∧ t.st = .halted ∧ t = s) := by
  obtain ⟨-, -, -, -, ⟨ho, -⟩ | ⟨g, hg, hst⟩⟩ := run_finished h (by simp)
  · cases ho
  · obtain rfl := RunResult.err.inj hg
    exact hst

/-- The request at which a finished `Run` ended. -/
theorem run_firstAnswer {n : Nat} {s t : State} {r : RunResult (List Word)} (h : run n s = (t, r))
    (hr : r ≠ .unfinished) : ∃ k < n, FirstAnswer endsRun k s ∧ t = afterRequests (k + 1) s := by
  obtain ⟨k, hk, first, ht, -⟩ := run_finished h hr
  exact ⟨k, hk, first, ht⟩

/-- Settles O46: the loop of `Run`, and the core after each kind of ending answer. -/
theorem runReturnsTheWholeOutput : Obligations.RunReturnsTheWholeOutput := by
  intro n s
  refine ⟨fun k hk first => ?_, run_requestLoop.unfinished, fun t outs h => ⟨run_firstAnswer h (by simp), run_ok h⟩,
    fun t f h => ⟨run_firstAnswer h (by simp), run_err h⟩, fun hs => run_fault (request_of_halted hs)⟩
  rw [run_requestLoop.at_first hk first]
  exact ⟨fun ha => by rw [ha, runResult], fun f ha => by rw [ha, runResult]⟩

/-- A finished `RunToOut`: at the first ending answer, one value output, or none and Halted, or none and that fault. -/
theorem runToOut_finished {n : Nat} {s t : State} {r : RunResult (Option Word)} (h : runToOut n s = (t, r))
    (hr : r ≠ .unfinished) :
    ∃ k < n, FirstAnswer endsRunToOut k s ∧ t = afterRequests (k + 1) s ∧
      ((∃ m v, nthAnswer k s = .done (.output m) ∧ r = .ok (some v) ∧ t.st = .running ∧ t.outq = s.outq ++ [v]) ∨
        (nthAnswer k s = .done .halt ∧ r = .ok none ∧ t.st = .halted ∧ t.outq = s.outq) ∨
        ∃ f, nthAnswer k s = .fault f ∧ r = .err f ∧ t.outq = s.outq ∧
          (t.st = .faulted f ∨ (f = .alreadyHalted ∧ t.st = .halted ∧ t = s))) := by
  obtain ⟨k, hk, first, rfl, rfl⟩ := runToOut_requestLoop.finished h hr
  have hout := afterRequests_of_not_endsRunToOut first.2
  refine ⟨k, hk, first, rfl, ?_⟩
  rcases endsRunToOut_eq_true.mp first.1 with ⟨m, ha⟩ | ha | ⟨f, ha⟩
  · obtain ⟨v, hv, hst⟩ := request_output ha
    rw [← afterRequests_succ_last, hout] at hv
    rw [← afterRequests_succ_last] at hst
    exact .inl ⟨m, v, ha, by rw [ha, runToOutResult, hv, List.getLast?_concat], hst, hv⟩
  · rw [ha, afterRequests_succ_last, request_halt ha]
    exact .inr (.inl ⟨rfl, rfl, rfl, hout⟩)
  · obtain ⟨hsame, hst⟩ := fault_at_end (fun j hj => endsRun_of_endsRunToOut (first.2 j hj)) ha
    exact .inr (.inr ⟨f, ha, by rw [ha]; rfl, hsame.trans hout, hst⟩)

/-- Settles O47: the loop of `RunToOut`, and the core after each kind of ending answer. -/
theorem runToOutStopsAfterOneOutput : Obligations.RunToOutStopsAfterOneOutput := by
  intro n s
  refine ⟨fun k hk first => ?_, runToOut_requestLoop.unfinished, fun t r h hr => ?_, fun t v h => ?_, fun t h => ?_,
    fun t f h => ?_⟩
  · rw [runToOut_requestLoop.at_first hk first]
    exact ⟨fun m ha => by rw [ha, runToOutResult], fun ha => by rw [ha]; rfl, fun f ha => by rw [ha, runToOutResult]⟩
  · obtain ⟨k, hk, first, ht, -⟩ := runToOut_finished h hr
    exact ⟨k, hk, first, ht⟩
  · obtain ⟨-, -, -, -, ⟨m, v', -, hv, hst, hout⟩ | ⟨-, hv, -⟩ | ⟨f, -, hv, -⟩⟩ := runToOut_finished h (by simp)
    · obtain rfl := Option.some.inj (RunResult.ok.inj hv)
      exact ⟨hst, hout⟩
    all_goals cases hv
  · obtain ⟨-, -, -, -, ⟨m, v', -, hv, -⟩ | ⟨-, -, hst, hout⟩ | ⟨f, -, hv, -⟩⟩ := runToOut_finished h (by simp)
    case inr.inl => exact ⟨hst, hout, runToOut_fault (request_of_halted hst)⟩
    all_goals cases hv
  · obtain ⟨-, -, -, -, ⟨m, v', -, hv, -⟩ | ⟨-, hv, -⟩ | ⟨g, -, hv, hout, hst⟩⟩ := runToOut_finished h (by simp)
    case inr.inr =>
      obtain rfl := RunResult.err.inj hv
      exact ⟨hout, hst⟩
    all_goals cases hv

end Sys2Proof.Machine
end

section
/-! Repeated `RunToOut` calls against one `Run` (spec/70_reset_and_hazards.md rule R258), and `RunWith` (R250). -/

namespace Sys2Proof.Machine

/-- A `Run` that ends with outputs is a `RunToOut` that ends with `None` and no new output, or one that gives a value with
a shorter `Run` after it. -/
theorem run_splits {m : Nat} {s t : State} {outs : List Word} (h : run m s = (t, .ok outs)) :
    (runToOut m s = (t, .ok none) ∧ outs = s.outq) ∨
      ∃ m' < m, ∃ u v, runToOut m s = (u, .ok (some v)) ∧ u.outq = s.outq ++ [v] ∧ run m' u = (t, .ok outs) := by
  induction m generalizing s with
  | zero => cases h
  | succ m ih =>
    rcases request_cases s with ⟨f, u, e, -⟩ | ⟨-, -, e⟩ | ⟨md, v, u, -, -, e, hout, -⟩ | ⟨i, u, -, -, e, hne, hno, hout, -⟩
    · rw [run_fault e] at h
      cases h
    · rw [run_halt e] at h
      obtain ⟨rfl, ho⟩ := Prod.mk.inj h
      exact .inl ⟨runToOut_halt e, (RunResult.ok.inj ho).symm⟩
    · rw [run_continues e (by simp)] at h
      refine .inr ⟨m, Nat.lt_succ_self m, u, v, ?_, hout, h⟩
      rw [runToOut_output e, hout, List.getLast?_concat]
    · rw [run_continues e hne] at h
      rw [runToOut_continues e hne hno, ← hout]
      exact (ih h).imp_right fun ⟨m', hm', rest⟩ => ⟨m', by omega, rest⟩

theorem drainOutputs_none {n k : Nat} {s t : State} (h : runToOut n s = (t, .ok none)) :
    drainOutputs n (k + 1) s = ([], t, .ok none) := by
  simp only [drainOutputs, h]

theorem drainOutputs_some {n k : Nat} {s t : State} {v : Word} (h : runToOut n s = (t, .ok (some v))) :
    drainOutputs n (k + 1) s = (v :: (drainOutputs n k t).1, (drainOutputs n k t).2) := by
  simp only [drainOutputs, h]

/-- The calls give the outputs that `Run` adds, with a budget that covers the whole `Run` and a call for each output. -/
theorem drainOutputs_of_run {n m : Nat} (hmn : m ≤ n) {k : Nat} {s t : State} {outs : List Word}
    (h : run m s = (t, .ok outs)) (hk : outs.length < k + s.outq.length) :
    ∃ vs, drainOutputs n k s = (vs, t, .ok none) ∧ outs = s.outq ++ vs := by
  induction m using Nat.strong_induction_on generalizing k s with
  | _ m ih =>
    obtain ⟨-, -, hpre⟩ := run_ok h
    have hlen := hpre.length_le
    obtain ⟨k, rfl⟩ : ∃ k', k = k' + 1 := ⟨k - 1, by omega⟩
    rcases run_splits h with ⟨hnone, rfl⟩ | ⟨m', hm', u, v, hsome, hout, hrest⟩
    · exact ⟨[], drainOutputs_none (runToOut_requestLoop.mono hmn hnone (by simp)), by simp⟩
    · obtain ⟨vs, hvs, rfl⟩ := ih m' hm' (by omega) hrest (k := k) (by
        rw [hout, List.length_append, List.length_singleton]
        omega)
      refine ⟨v :: vs, ?_, by rw [hout, List.append_assoc, List.singleton_append]⟩
      rw [drainOutputs_some (runToOut_requestLoop.mono hmn hsome (by simp)), hvs]

/-- The requests of a `RunToOut` call that gives a value lead `Run` on to the same state. -/
theorem run_after_value {n : Nat} {s u : State} {v : Word} (h : runToOut n s = (u, .ok (some v))) :
    u.outq = s.outq ++ [v] ∧ ∃ k, ∀ m, run (k + m) s = run m u := by
  obtain ⟨k, -, first, rfl, ⟨md, v', ha, hv, -, hout⟩ | ⟨-, hv, -⟩ | ⟨f, -, hv, -⟩⟩ := runToOut_finished h (by simp)
  case inl =>
    obtain rfl := Option.some.inj (RunResult.ok.inj hv)
    refine ⟨hout, k + 1, run_requestLoop.skip fun j hj => ?_⟩
    rcases Nat.lt_succ_iff_lt_or_eq.mp hj with hlt | rfl
    · exact endsRun_of_endsRunToOut (first.2 j hlt)
    · rw [ha]
      rfl
  all_goals cases hv

/-- The requests of a `RunToOut` call that gives `None` are those of a `Run` that ends with the outputs so far. -/
theorem run_of_none {n : Nat} {s t : State} (h : runToOut n s = (t, .ok none)) : ∃ m, run m s = (t, .ok s.outq) := by
  obtain ⟨k, -, first, rfl, ⟨md, v', -, hv, -⟩ | ⟨ha, -, -, hout⟩ | ⟨f, -, hv, -⟩⟩ := runToOut_finished h (by simp)
  case inr.inl =>
    have firstRun : FirstAnswer endsRun k s :=
      ⟨by rw [ha]; rfl, fun j hj => endsRun_of_endsRunToOut (first.2 j hj)⟩
    refine ⟨k + 1, ?_⟩
    rw [run_requestLoop.at_first (Nat.lt_succ_self k) firstRun, ha, runResult, hout]
  all_goals cases hv

theorem run_of_drainOutputs {n k : Nat} {s t : State} {vs : List Word}
    (h : drainOutputs n k s = (vs, t, .ok none)) : ∃ m, run m s = (t, .ok (s.outq ++ vs)) := by
  induction k generalizing s vs with
  | zero => cases h
  | succ k ih =>
    rcases hr : runToOut n s with ⟨u, (_ | v) | f | _⟩
    · rw [drainOutputs_none hr] at h
      obtain ⟨rfl, ht⟩ := Prod.mk.inj h
      obtain ⟨rfl, -⟩ := Prod.mk.inj ht
      rw [List.append_nil]
      exact run_of_none hr
    · rw [drainOutputs_some hr] at h
      obtain ⟨rfl, ht⟩ := Prod.mk.inj h
      obtain ⟨hout, j, hj⟩ := run_after_value hr
      obtain ⟨m, hm⟩ := ih (s := u) (vs := (drainOutputs n k u).1) (by rw [← ht])
      refine ⟨j + m, ?_⟩
      rw [hj, hm, hout, List.append_assoc, List.singleton_append]
    all_goals
      simp only [drainOutputs, hr, Prod.mk.injEq, reduceCtorEq, and_false] at h

/-- Settles O49: both directions, call by call. -/
theorem runToOutCallsYieldTheOutputsOfRun : Obligations.RunToOutCallsYieldTheOutputsOfRun :=
  ⟨fun _ _ _ _ _ h hk => drainOutputs_of_run le_rfl h (by omega), fun _ _ _ _ _ h => run_of_drainOutputs h⟩

/-! Patches. -/

theorem applyPatches_accepted {s : State} {a x : Word} (h : s.AcceptsPatch a) (rest : List (Word × Word)) :
    applyPatches ((a, x) :: rest) s = applyPatches rest (storeCell s a.toNat x) := by
  simp only [applyPatches, patch, memWrite_accepted x h]

theorem applyPatches_refused {s : State} {a x : Word} {f : Fault} (h : patch a x s = .error f)
    (rest : List (Word × Word)) : applyPatches ((a, x) :: rest) s = (s, some f) := by
  simp only [applyPatches, h]

theorem lastPatch_cons (a x : Word) (rest : List (Word × Word)) (b : Word) :
    lastPatch ((a, x) :: rest) b = if a = b then some ((lastPatch rest b).getD x) else lastPatch rest b := by
  unfold lastPatch
  by_cases hab : a = b
  · rw [List.filter_cons_of_pos (by simpa using hab), List.getLast?_cons, if_pos hab]
    cases (rest.filter fun p => decide (p.1 = b)).getLast? <;> rfl
  · rw [List.filter_cons_of_neg (by simpa using hab), if_neg hab]

theorem Patched.nil (s : State) : Patched [] s s where
  cells _ ha := memRead_nonneg ha
  extent := rfl
  rest := rfl

/-- One more patch in front: its cell is overwritten only by a later patch to the same address. -/
theorem Patched.cons {s t : State} {a x : Word} {rest : List (Word × Word)} (ha : s.AcceptsPatch a)
    (h : Patched rest (storeCell s a.toNat x) t) : Patched ((a, x) :: rest) s t where
  cells b hb := by
    rw [h.cells b hb, wordAt_storeCell x ha.2, lastPatch_cons]
    by_cases hab : a = b
    · rw [if_pos hab, if_pos (by rw [hab]), Option.getD_some]
    · rw [if_neg hab, if_neg fun e => hab (BitVec.eq_of_toNat_eq e).symm]
  extent := by rw [h.extent, storeCell_extent_eq_max, List.foldl_cons]
  rest := h.rest

/-- What the patches leave: all applied, or those before the first that is refused. -/
theorem applyPatches_cases (patches : List (Word × Word)) (s : State) :
    (∃ t, applyPatches patches s = (t, none) ∧ (∀ p ∈ patches, s.AcceptsPatch p.1) ∧ Patched patches s t) ∨
      ∃ t f done a x rest, applyPatches patches s = (t, some f) ∧ patches = done ++ (a, x) :: rest ∧
        ¬ s.AcceptsPatch a ∧ Patched done s t ∧ patch a x t = .error f ∧
        (f = .negativeAddress a ∨ f = .capacityExceeded a) := by
  induction patches generalizing s with
  | nil => exact .inl ⟨s, rfl, by simp, .nil s⟩
  | cons p rest ih =>
    obtain ⟨a, x⟩ := p
    rcases patch_cases a x s with ⟨ha, -⟩ | ⟨ha, f, e, hf⟩
    · rw [applyPatches_accepted ha]
      rcases ih (storeCell s a.toNat x) with ⟨t, e, hall, hp⟩ | ⟨t, f, done, b, y, rest', e, rfl, hb, hp, he, hf⟩
      · exact .inl ⟨t, e, List.forall_mem_cons.mpr ⟨ha, hall⟩, hp.cons ha⟩
      · exact .inr ⟨t, f, (a, x) :: done, b, y, rest', e, rfl, hb, hp.cons ha, he, hf⟩
    · exact .inr ⟨s, f, [], a, x, rest, applyPatches_refused e rest, rfl, ha, .nil s, e, hf⟩

/-- Settles O48: the two cases of the patches; `RunWith` then runs, or ends at once. -/
theorem runWithPatchesThenRuns : Obligations.RunWithPatchesThenRuns := by
  intro n patches s
  rcases applyPatches_cases patches s with
    ⟨t, e, hall, hp⟩ | ⟨t, f, done, a, x, rest, e, rfl, ha, hp, he, hf⟩ <;> rw [e]
  · refine ⟨⟨fun _ => ⟨t, rfl⟩, fun _ => hall⟩, ?_, fun t' f h => (by cases h)⟩
    rintro t' ⟨⟩
    refine ⟨hp, fun u outs hr => ?_, fun u f hr => ?_, fun u hr => ?_⟩ <;> simp only [runWith, e, hr]
  · refine ⟨⟨fun hall => absurd (hall (a, x) (by simp)) ha, fun ⟨t', h⟩ => (by cases h)⟩,
      fun t' h => (by cases h), ?_⟩
    rintro t' f' ⟨⟩
    exact ⟨by simp only [runWith, e], done, a, x, rest, rfl, hp, he, hf⟩

end Sys2Proof.Machine
end
